-- ==== Sys2Proof/Word.lean ====
section
/-! DEFINITION. The word types of the block (00_scope.md R8, R9) and of its channels (30_encoding.md R90, R96). -/

namespace Sys2Proof

/-- A `u32` (R9): the width `W` of R6. An `i32` is the same 32 bits read by `BitVec.toInt` (`sval` of R9). -/
abbrev Word := BitVec 32

/-- The twister register `mt[0..623]` (10_state.md R31): `MT_N = 624` words, a number HP fixes. The words are a list, word 0 first,
with its length, so that two registers are compared word by word. -/
structure Block where
  words : List Word
  size : words.length = 624
deriving DecidableEq, Repr

/-- The register whose words are all `w`. -/
def Block.fill (w : Word) : Block := ⟨List.replicate 624 w, List.length_replicate⟩

/-- `mt[i]`, for an index in 0..623 (20_memory.md R72). -/
def Block.word (mt : Block) (i : Nat) (h : i < 624) : Word := mt.words[i]'(by rw [mt.size]; exact h)

/-- The Mother history `hist[0..4]` (10_state.md R41): `MG_H = 5` words, a number HP fixes. -/
abbrev History := Vector Word 5

/-- A command `CMD[71:0]` as the host presents it (R90). -/
abbrev CommandWord := BitVec 72

/-- A response `RSP[67:0]` (R96). -/
abbrev ResponseWord := BitVec 68

end Sys2Proof
end

