-- ==== Sys2Proof/Config.lean ====
section
/-! DEFINITION. The parameters of the block (00_scope.md R6, R7; 92_eei_decisions.md section 2): what is fixed for one block and
differs, at most, from one block to another. `W`, `MT_N`, `MT_M`, `MT_R` and `MG_H` are fixed by HP and are no parameters. -/

namespace Sys2Proof

/-- `FLOAT_MODE` (10_state.md R44). `NON_IEEE` and the reserved value 3 are never taken (R44, R166), so the type lacks them. -/
inductive FloatMode where
  | leIeee
  | beIeee
deriving DecidableEq, Repr

/-- The parameters of R6 that a model takes as configuration. Every value HP names without a number is PRESUMED (the spec's own
general knowledge, entry 8); `Config.default` holds the numbers. -/
structure Config where
  /-- `MT_A`, the twist constant. -/
  mtA : Word
  /-- `MT_U`, `MT_S`, `MT_T`, `MT_L`, the tempering shift counts. -/
  mtU : Nat
  mtS : Nat
  mtT : Nat
  mtL : Nat
  /-- `MT_B`, `MT_C`, the tempering masks. -/
  mtB : Word
  mtC : Word
  /-- `MT_F`, the seeding multiplier. -/
  mtF : Word
  /-- `MT_FS`, the seeding shift. -/
  mtFS : Nat
  /-- `MT_ARRAY_SEED`, the seed that array seeding starts from. -/
  mtArraySeed : Word
  /-- `MT_K1`, `MT_K2`, the multipliers of the two array-seeding passes. -/
  mtK1 : Word
  mtK2 : Word
  /-- `MT_ARRAY_W0`, the value forced into `mt[0]` at the end of array seeding. -/
  mtArrayW0 : Word
  /-- `MG_W0` to `MG_W3`, the weights of `hist[0]` to `hist[3]`. -/
  mgW0 : Word
  mgW1 : Word
  mgW2 : Word
  mgW3 : Word
  /-- `MG_SEED_MUL`, `MG_SEED_ADD`, the Mother seeding recurrence. -/
  mgSeedMul : Word
  mgSeedAdd : Word
  /-- `MG_WARMUP`, the draws discarded at the end of Mother seeding. -/
  mgWarmup : Nat
  /-- `FLOAT_MODE`. -/
  floatMode : FloatMode
deriving DecidableEq, Repr

/-- The default values of R6's table. -/
def Config.default : Config where
  mtA := 0x9908B0DF
  mtU := 11
  mtS := 7
  mtT := 15
  mtL := 18
  mtB := 0x9D2C5680
  mtC := 0xEFC60000
  mtF := 1812433253
  mtFS := 30
  mtArraySeed := 19650218
  mtK1 := 1664525
  mtK2 := 1566083941
  mtArrayW0 := 0x80000000
  mgW0 := 5115
  mgW1 := 1776
  mgW2 := 1492
  mgW3 := 2111111111
  mgSeedMul := 29943829
  mgSeedAdd := 0xFFFFFFFF
  mgWarmup := 0
  floatMode := .leIeee

/-- The constraint of R7 on the Mother weights: the weighted sum of one draw then fits 64 bits. -/
def Config.weightsFit (c : Config) : Bool :=
  c.mgW0.toNat + c.mgW1.toNat + c.mgW2.toNat + c.mgW3.toNat + 1 ≤ 2 ^ 32

end Sys2Proof
end

