-- ==== Sys2Proof/Syntax.lean ====
section
/-! DEFINITION. The eleven commands (30_encoding.md R93), one constructor per row of spec/opcode_table.json, and their formats (R91). -/

namespace Sys2Proof

/-- A command with the operands its format uses (R91). A field the format ignores is no part of the command. -/
inductive Instr where
  /-- MT_INIT (40_mt_seeding.md R121). -/
  | mtInit (seed : Word)
  /-- MT_INIT_ARRAY (R124): `length` is read as signed (R92); the words come over the seed channel. -/
  | mtInitArray (length : Word)
  /-- MT_NEXT_WORD (41_mt_draw.md R144). -/
  | mtNextWord
  /-- MT_NEXT_FLOAT (42_float_converter.md R169). -/
  | mtNextFloat
  /-- MT_BIASED_RANGE (43_range_mapper.md R185): both bounds are read as signed (R92). -/
  | mtBiasedRange (min max : Word)
  /-- MT_EXACT_RANGE (R190). -/
  | mtExactRange (min max : Word)
  /-- MG_INIT (44_mother.md R211). -/
  | mgInit (seed : Word)
  /-- MG_NEXT_WORD (R212). -/
  | mgNextWord
  /-- MG_NEXT_FLOAT (R214). -/
  | mgNextFloat
  /-- MG_BIASED_RANGE (R215). -/
  | mgBiasedRange (min max : Word)
  /-- STAT (45_system.md R230). -/
  | stat
deriving DecidableEq, Repr

/-- The four operand formats of R91. -/
inductive Format where
  /-- No operand: `a` and `b` ignored. -/
  | z
  /-- Seed: `a` is the seed, `b` ignored. -/
  | s
  /-- Vector: `a` is the length, `b` ignored. -/
  | v
  /-- Range: `a` is `min`, `b` is `max`. -/
  | r
deriving DecidableEq, Repr

/-- The format of each command (R91, R93). -/
def Instr.format : Instr → Format
  | .mtInit _ => .s
  | .mtInitArray _ => .v
  | .mtNextWord => .z
  | .mtNextFloat => .z
  | .mtBiasedRange _ _ => .r
  | .mtExactRange _ _ => .r
  | .mgInit _ => .s
  | .mgNextWord => .z
  | .mgNextFloat => .z
  | .mgBiasedRange _ _ => .r
  | .stat => .z

end Sys2Proof
end

