-- ==== Sys2Proof/Machine/State.lean ====
section
/-! DEFINITION. The state of the block (10_state.md R30), the host's part of a run, the reasons a step can stop, and reset (R60). -/

namespace Sys2Proof.Machine

/-- What the host can do to the block (92_eei_decisions.md section 3). -/
inductive HostInput where
  /-- Present a command, any 72-bit word (30_encoding.md R90). -/
  | command (w : CommandWord)
  /-- Append a word to the back of `seedq` over the seed channel (20_memory.md R74). -/
  | seedWord (w : Word)
  /-- Apply reset (70_reset_and_hazards.md R280). -/
  | reset
deriving DecidableEq, Repr

/-- The state. Names are those of R30's table in Lean's spelling. -/
structure State where
  /-- The parameters of R6, constants of the block: no command and no reset changes them (R282; entry 8). -/
  cfg : Config
  /-- The twister register (R31). -/
  mt : Block
  /-- The cursor into `mt` (R33): 10 bits, 624 asks for a regeneration. -/
  index : BitVec 10
  /-- The interval whose rejection limit is cached, 0 for none (R37). -/
  lastInterval : Word
  /-- The cached rejection limit (R38): 33 bits. -/
  rejectionLimit : BitVec 33
  /-- `mt_seeded` (R46). -/
  mtSeeded : Bool
  /-- The Mother history (R41): newest output first, the carry last. -/
  hist : History
  /-- `mg_seeded` (R46). -/
  mgSeeded : Bool
  /-- The fault latch (R47). -/
  halt : Bool
  /-- `fault_code` (R48). -/
  faultCode : BitVec 3
  /-- The seed queue, front first (R50). -/
  seedq : List Word
  /-- The responses sent since reset, oldest first (R96, R280; entry 5). -/
  responses : List ResponseWord
  /-- The command taken and not yet answered, if any (R74, R291, R292, R294; entry 6). -/
  executing : Option Instr
  /-- What the host will still do, in its order (R36, R53; entry 3). -/
  inputs : List HostInput
deriving DecidableEq, Repr

/-- Why a step stops the model. The faults of 60_exceptions.md are no stops: they are next states (`State.raiseFault`). -/
inductive Fault where
  /-- Raised by the four MG commands when the configured weights break the constraint of 00_scope.md R7, which every configuration
  must meet: the carry of a draw would not fit its word, and the spec gives no meaning to such a block. Safe: the model stops, and
  no configuration the spec admits reaches it (entry 9). -/
  | weightsTooLarge
deriving DecidableEq, Repr

/-- Why the model has no meaning for an instruction. -/
inductive Refusal where
  /-- Raised by an arm of `exec` whose instruction has no meaning yet. Safe: the model stops. No arm of this model raises it. -/
  | notModelled (mnemonic : String)
deriving DecidableEq, Repr

/-- The state after reset (R60, R280), with the default parameters of R6 and a host that has presented nothing. `mt`, `hist` and
`rejectionLimit` are unspecified by R60: the values here are a DESIGN CHOICE (entries 1 and 2), which no command reads while the
seeded flags and `lastInterval` are 0. -/
def State.reset : State where
  cfg := Config.default
  mt := Block.fill 0
  index := 624
  lastInterval := 0
  rejectionLimit := 0x100000000
  mtSeeded := false
  hist := Vector.replicate 5 0
  mgSeeded := false
  halt := false
  faultCode := 0
  seedq := []
  responses := []
  executing := none
  inputs := []

end Sys2Proof.Machine
end

