-- ==== Sys2Proof/Machine/Flags.lean ====
section
/-! DEFINITION. The block's flags: the fault codes (60_exceptions.md R241), the encoding of `FLOAT_MODE` (10_state.md R44), and the status
register (R51, R52). There are no arithmetic condition codes and no floating-point flags (R49, R168). -/

namespace Sys2Proof.Machine

/-- The faults a command can raise (R241). `HALTED` is not among them: a refusal raises no fault (R244). -/
inductive FaultCode where
  | illegalOp
  | unseeded
  | precondRange
  | precondLength
deriving DecidableEq, Repr

/-- The code that `fault_code` latches and the response carries (R241). -/
def FaultCode.bits : FaultCode → BitVec 3
  | .illegalOp => 1
  | .unseeded => 2
  | .precondRange => 3
  | .precondLength => 4

/-- The code `HALTED` (R241): in a response only, never in `fault_code`. -/
def haltedCode : BitVec 3 := 7

/-- The 2-bit encoding of `FLOAT_MODE` (R44). -/
def floatModeBits : FloatMode → BitVec 2
  | .leIeee => 0
  | .beIeee => 1

/-- The status register `SR` (R52, R230): a view, with no storage of its own (R51). -/
def statusRegister (s : State) : Word :=
  0#24 ++ floatModeBits s.cfg.floatMode ++ s.faultCode ++ BitVec.ofBool s.halt ++ BitVec.ofBool s.mgSeeded ++
    BitVec.ofBool s.mtSeeded

end Sys2Proof.Machine
end

