-- ==== Sys2Proof/Machine/Operands.lean ====
section
/-! DEFINITION. Operand forms (30_encoding.md R91, R92), the range precondition (43_range_mapper.md R180), result kinds (R97) and the
response word (R96). -/

namespace Sys2Proof.Machine

/-- `sval(v)` (00_scope.md R9): a 32-bit pattern read as two's complement. -/
def sval (v : Word) : Int := if v.toNat < 2 ^ 31 then (v.toNat : Int) else (v.toNat : Int) - 2 ^ 32

/-- `RangeCheck(a, b)` (R180): the interval `max - min + 1`, computed on unbounded integers so that nothing wraps; none where the
precondition fails. The `lo` that R180 also returns is `sval a`. -/
def rangeCheck (a b : Word) : Option Nat :=
  let lo := sval a
  let hi := sval b
  if hi < lo then none
  else if hi - lo ≥ 2 ^ 31 then none
  else some (hi - lo + 1).toNat

/-- The `length` operand of format V (R92, R124): none where it is below 1. -/
def lengthCheck (a : Word) : Option Nat :=
  if sval a < 1 then none else some (sval a).toNat

/-- Result kind `none` (R97). -/
def noResult : BitVec 64 := 0

/-- Result kinds `u32` and `i32` (R97): the word in `value[31:0]`, zero above it. An `i32` is not sign-extended. -/
def wordResult (w : Word) : BitVec 64 := w.setWidth 64

/-- The response of a completed command (R96): `err = 0`, `code = 0`. -/
def okResponse (value : BitVec 64) : ResponseWord := 0#1 ++ 0#3 ++ value

/-- The response of a faulted or refused command (R96): `err = 1`, the code, `value = 0`. -/
def errResponse (code : BitVec 3) : ResponseWord := 1#1 ++ code ++ 0#64

/-- `RSP[67]` (R96). -/
def responseErr (r : ResponseWord) : Bool := r.getLsbD 67

/-- `RSP[66:64]` (R96). -/
def responseCode (r : ResponseWord) : BitVec 3 := r.extractLsb' 64 3

/-- `RSP[63:0]` (R96). -/
def responseValue (r : ResponseWord) : BitVec 64 := r.extractLsb' 0 64

end Sys2Proof.Machine
end

