-- ==== Sys2Proof/Machine/Ops.lean ====
section
/-! DEFINITION. The operations every command shares: answering, taking a fault, refusing while halted, the preamble of
40_mt_seeding.md R120, and the host's seed channel and reset. -/

namespace Sys2Proof.Machine

/-- Send a response: it follows all earlier ones (20_memory.md R80), and the command is over. -/
def State.respond (s : State) (r : ResponseWord) : State :=
  { s with responses := s.responses ++ [r], executing := none }

/-- TAKING A FAULT (60_exceptions.md R242): the latch, the code and the error response, and nothing else. There is no handler, no
saved state and no return: only reset leaves the halt (R248). -/
def State.raiseFault (s : State) (code : FaultCode) : State :=
  { s with halt := true, faultCode := code.bits }.respond (errResponse code.bits)

/-- The refusal of a command while halted (R244): the response `HALTED`, and no state changes. -/
def State.refuseHalted (s : State) : State := s.respond (errResponse haltedCode)

/-- What the body of a command comes to, once the block is not halted. -/
inductive CommandResult where
  /-- The command's effect is complete and leaves this state; its result is the value. -/
  | completes (value : BitVec 64) (s : State)
  /-- The command stays in execution, unanswered, with this state (20_memory.md R74, 70_reset_and_hazards.md R292, R294). -/
  | waits (s : State)
  /-- The command faults. No state is given: a fault leaves the state before the command (R120, R240). -/
  | faults (code : FaultCode)

/-- A command `i` on a state `s`: refused while halted, else its result applied (R120, R242). -/
def runCommand (i : Instr) (s : State) (result : CommandResult) : State :=
  if s.halt then s.refuseHalted
  else
    match result with
    | .completes value t => t.respond (okResponse value)
    | .waits t => { t with executing := some i }
    | .faults code => s.raiseFault code

/-- Step (3) of the preamble (R120, R246): a draw, float or range command needs its own unit's seeded flag. -/
def ifSeeded (seeded : Bool) (result : CommandResult) : CommandResult :=
  if seeded then result else .faults .unseeded

/-- Step (4) of the preamble for the range commands (R120, R180): the interval is handed to the effect. -/
def withInterval (min max : Word) (effect : Nat → CommandResult) : CommandResult :=
  match rangeCheck min max with
  | none => .faults .precondRange
  | some interval => effect interval

/-- A command word whose opcode is reserved (R245): refused while halted, else the fault `ILLEGAL_OP` (R120, R243). -/
def State.illegalCommand (s : State) : State :=
  if s.halt then s.refuseHalted else s.raiseFault .illegalOp

/-- The host appends a word to the back of `seedq` (20_memory.md R74): no other state changes and no response is sent. -/
def State.appendSeed (s : State) (w : Word) : State := { s with seedq := s.seedq ++ [w] }

/-- Reset (70_reset_and_hazards.md R280, R282): the state of 10_state.md R60. The parameters survive; a command in execution is
dropped without a response; the next response begins a new sequence; what the host will still do is the host's. -/
def State.hostReset (s : State) : State := { State.reset with cfg := s.cfg, inputs := s.inputs }

end Sys2Proof.Machine
end

