-- ==== Sys2Proof/Machine/MtDraw.lean ====
section
/-! DEFINITION. The MT unit's draw (41_mt_draw.md): regeneration (R141, R142), tempering (R143), MT_NEXT_WORD (R144). -/

namespace Sys2Proof.Machine

/-- The new word from `mt[i]`, `mt[(i+1) mod 624]` and `mt[(i+397) mod 624]` (R141). -/
def twist (c : Config) (cur next far : Word) : Word :=
  let y := (cur &&& 0x80000000) ||| (next &&& 0x7FFFFFFF)
  far ^^^ (y >>> 1) ^^^ (if y.getLsbD 0 then c.mtA else 0)

/-- New words in ascending order: one for each two neighbours of the first list and one word of the second. -/
def twistRow (c : Config) : (words fars : List Word) → List Word
  | cur :: next :: rest, far :: fars => twist c cur next far :: twistRow c (next :: rest) fars
  | _, _ => []

theorem length_twistRow (c : Config) (words fars : List Word) :
    (twistRow c words fars).length = min (words.length - 1) fars.length := by
  fun_induction twistRow c words fars with
  | case1 cur next rest far fars ih => simp only [List.length_cons, ih]; omega
  | case2 words fars h =>
    cases words with
    | nil => simp
    | cons a l =>
      cases l with
      | nil => simp
      | cons b l => cases fars with
        | nil => simp
        | cons f fs => exact absurd rfl (h a b l f fs rfl)

/-- `Regenerate()` on the words of the register, in R142's terms. Words 0..226 read only old words; words 227..622 read, as the
third word, the new word 227 places before; word 623 reads the new `mt[0]` as its neighbour and the new `mt[396]`. So the
new words come in three runs (0..226, 227..453, 454..623), each reading the run before it. -/
def regenerateWords (c : Config) (old : List Word) : List Word :=
  let run1 := twistRow c old (old.drop 397)
  let run2 := twistRow c (old.drop 227) run1
  let run3 := twistRow c (old.drop 454 ++ run1.take 1) run2
  run1 ++ run2 ++ run3

theorem length_regenerateWords (c : Config) (old : List Word) (h : old.length = 624) :
    (regenerateWords c old).length = 624 := by
  simp [regenerateWords, length_twistRow, h]

/-- `Regenerate()` on the register (R141). -/
def regenerate (c : Config) (mt : Block) : Block :=
  ⟨regenerateWords c mt.words, length_regenerateWords c _ mt.size⟩

/-- `Temper(y)` (R143): it reads and writes no state. -/
def temper (c : Config) (y : Word) : Word :=
  let y1 := y ^^^ (y >>> c.mtU)
  let y2 := y1 ^^^ ((y1 <<< c.mtS) &&& c.mtB)
  let y3 := y2 ^^^ ((y2 <<< c.mtT) &&& c.mtC)
  y3 ^^^ (y3 >>> c.mtL)

/-- The first statement of `MtDraw()` (R144): regenerate when `index >= 624`, which leaves `index = 0`. -/
def State.mtReady (s : State) : State :=
  if s.index.toNat < 624 then s else { s with mt := regenerate s.cfg s.mt, index := 0 }

theorem mtReady_index_lt (s : State) : s.mtReady.index.toNat < 624 := by
  unfold State.mtReady
  split
  · assumption
  · exact (by decide : (0 : BitVec 10).toNat < 624)

/-- `MtDraw()` (R144): the tempered word at the cursor, and the cursor advanced. -/
def mtDraw (s : State) : Word × State :=
  let t := s.mtReady
  (temper t.cfg (t.mt.word t.index.toNat (mtReady_index_lt s)), { t with index := t.index + 1 })

/-- MT_NEXT_WORD (R144). -/
def execMtNextWord (s : State) : Host.Outcome State Fault Refusal :=
  .next (runCommand .mtNextWord s
    (ifSeeded s.mtSeeded (.completes (wordResult (mtDraw s).1) (mtDraw s).2)))

end Sys2Proof.Machine
end

