-- ==== Sys2Proof/Machine/FloatConv.lean ====
section
/-! DEFINITION. The float converter (42_float_converter.md R160 to R166) and MT_NEXT_FLOAT (R169). -/

namespace Sys2Proof.Machine

/-- `bitlen(p)` (00_scope.md R10), for `p > 0`: the position of the highest set bit plus one. -/
def bitlen (p : Nat) : Nat := Nat.log2 p + 1

/-- Stage 1 (R161): `P12(w)`, the word in the top 32 fraction bits under the exponent of [1,2). `FLOAT_MODE` does not enter (R166). -/
def floatAssemble (w : Word) : BitVec 64 := 0x3FF0000000000000 ||| (w.setWidth 64 <<< 20)

/-- `FCV(w)`, the binary64 pattern of `w / 2^32` (R163). -/
def floatConvert (w : Word) : BitVec 64 :=
  if w.toNat = 0 then 0
  else
    let k := bitlen w.toNat - 1
    (BitVec.ofNat 64 (991 + k) <<< 52) ||| (BitVec.ofNat 64 (w.toNat - 2 ^ k) <<< (52 - k))

/-- MT_NEXT_FLOAT (R169): exactly one draw. -/
def execMtNextFloat (s : State) : Host.Outcome State Fault Refusal :=
  .next (runCommand .mtNextFloat s
    (ifSeeded s.mtSeeded (.completes (floatConvert (mtDraw s).1) (mtDraw s).2)))

end Sys2Proof.Machine
end

