-- ==== Sys2Proof/Machine/RangeMap.lean ====
section
/-! DEFINITION. The range mapper (43_range_mapper.md): the biased map (R181), the rejection limit (R188), MT_BIASED_RANGE (R185) and
MT_EXACT_RANGE (R190). -/

namespace Sys2Proof.Machine

/-- The product `P` rounded to 53 significant bits, to nearest with ties to even (R181); `P` itself below `2^53`. -/
def roundProduct (p : Nat) : Nat :=
  if p < 2 ^ 53 then p
  else
    let s := bitlen p - 53
    let hi := p / 2 ^ s
    let lo := p % 2 ^ s
    let hi' := if lo > 2 ^ (s - 1) ∨ (lo = 2 ^ (s - 1) ∧ hi % 2 = 1) then hi + 1 else hi
    hi' * 2 ^ s

/-- `BiasedMap(w, I)` (R181). -/
def biasedMap (w : Word) (interval : Nat) : Nat := roundProduct (w.toNat * interval) / 2 ^ 32

/-- The value of a biased range command (R185, R215): `a +32 q`. -/
def biasedResult (min w : Word) (interval : Nat) : BitVec 64 :=
  wordResult (min + BitVec.ofNat 32 (biasedMap w interval))

/-- MT_BIASED_RANGE (R185): exactly one draw, also when `min = max`. -/
def execMtBiasedRange (min max : Word) (s : State) : Host.Outcome State Fault Refusal :=
  .next (runCommand (.mtBiasedRange min max) s
    (ifSeeded s.mtSeeded (withInterval min max fun interval =>
      .completes (biasedResult min (mtDraw s).1 interval) (mtDraw s).2)))

/-- `RL(I)` (R188): the largest multiple of the interval not exceeding `2^32`. -/
def rejectionLimitOf (interval : Nat) : Nat := 2 ^ 32 / interval * interval

/-- The cache of R190: recomputed only when the interval differs from the cached one (10_state.md R37, R38). -/
def State.cacheInterval (s : State) (interval : Nat) : State :=
  if interval = s.lastInterval.toNat then s
  else { s with rejectionLimit := BitVec.ofNat 33 (rejectionLimitOf interval), lastInterval := BitVec.ofNat 32 interval }

/-- Up to `n` draws of R190's loop: the first word below the rejection limit, if there is one, and the state after the last draw.
A rejected word is consumed and lost. -/
def drawBelowLimit : (n : Nat) → State → Option Word × State
  | 0, s => (none, s)
  | n + 1, s =>
    if (mtDraw s).1.toNat < (mtDraw s).2.rejectionLimit.toNat then (some (mtDraw s).1, (mtDraw s).2)
    else drawBelowLimit n (mtDraw s).2

/-- How many draws of the rejection loop one step of the model makes at most. The block has no such bound (R294): a command that needs
more stays in execution and goes on in the next step, so the number shows in no response (DESIGN CHOICE, entry 7). -/
def drawsPerStep : Nat := 65536

/-- The value of MT_EXACT_RANGE (R190): `a +32 (w mod I)`. -/
def exactResult (min w : Word) (interval : Nat) : BitVec 64 :=
  wordResult (min + BitVec.ofNat 32 (w.toNat % interval))

/-- MT_EXACT_RANGE (R190). A command that has found no word yet stays in execution: run again, it finds its interval cached and goes
on drawing. -/
def execMtExactRange (min max : Word) (s : State) : Host.Outcome State Fault Refusal :=
  .next (runCommand (.mtExactRange min max) s
    (ifSeeded s.mtSeeded (withInterval min max fun interval =>
      match drawBelowLimit drawsPerStep (s.cacheInterval interval) with
      | (some w, t) => .completes (exactResult min w interval) t
      | (none, t) => .waits t)))

end Sys2Proof.Machine
end

