-- ==== Sys2Proof/Machine/Mother.lean ====
section
/-! DEFINITION. The MG unit (44_mother.md): MG_INIT (R211), MG_NEXT_WORD (R212), MG_NEXT_FLOAT (R214), MG_BIASED_RANGE (R215). -/

namespace Sys2Proof.Machine

/-- The exact weighted sum of one draw (R212), over the history before the shift. -/
def motherSum (c : Config) (h : History) : Nat :=
  c.mgW3.toNat * h[3].toNat + c.mgW2.toNat * h[2].toNat + c.mgW1.toNat * h[1].toNat + c.mgW0.toNat * h[0].toNat + h[4].toNat

/-- The history after one draw (R212): the new word at index 0, the words moved toward index 3, the new carry at index 4. -/
def motherNext (c : Config) (h : History) : History :=
  let sum := motherSum c h
  #v[BitVec.ofNat 32 (sum % 2 ^ 32), h[0], h[1], h[2], BitVec.ofNat 32 (sum / 2 ^ 32)]

/-- `MgDraw()` (R212): the word returned is the new `hist[0]`. -/
def mgDraw (s : State) : Word × State :=
  let h := motherNext s.cfg s.hist
  (h[0], { s with hist := h })

/-- One step of the seeding recurrence (R211). -/
def motherSeedNext (c : Config) (w : Word) : Word := w * c.mgSeedMul + c.mgSeedAdd

/-- The five words MG_INIT stores (R211): the recurrence is applied before the first store. Constants other than the defaults may make
them a fixed point of the draw, which R213 has whoever configures them rule out; the model then runs on (DESIGN CHOICE, entry 21). -/
def motherSeed (c : Config) (seed : Word) : History :=
  let s0 := motherSeedNext c seed
  let s1 := motherSeedNext c s0
  let s2 := motherSeedNext c s1
  let s3 := motherSeedNext c s2
  let s4 := motherSeedNext c s3
  #v[s0, s1, s2, s3, s4]

/-- `n` draws whose words are discarded (R211, `MG_WARMUP`). -/
def mgDiscard : (n : Nat) → State → State
  | 0, s => s
  | n + 1, s => mgDiscard n (mgDraw s).2

/-- The assignments of R211. -/
def State.mgInit (s : State) (seed : Word) : State :=
  { mgDiscard s.cfg.mgWarmup { s with hist := motherSeed s.cfg seed } with mgSeeded := true }

/-- A command of the MG unit. The constraint of 00_scope.md R7 on the configured weights is what makes the carry of R212 fit its word;
without it the model stops (entry 9). -/
def runMotherCommand (i : Instr) (s : State) (result : CommandResult) : Host.Outcome State Fault Refusal :=
  if s.cfg.weightsFit then .next (runCommand i s result) else .fault .weightsTooLarge

/-- MG_INIT (R211). -/
def execMgInit (seed : Word) (s : State) : Host.Outcome State Fault Refusal :=
  runMotherCommand (.mgInit seed) s (.completes noResult (s.mgInit seed))

/-- MG_NEXT_WORD (R212). -/
def execMgNextWord (s : State) : Host.Outcome State Fault Refusal :=
  runMotherCommand .mgNextWord s
    (ifSeeded s.mgSeeded (.completes (wordResult (mgDraw s).1) (mgDraw s).2))

/-- MG_NEXT_FLOAT (R214): exactly one draw. -/
def execMgNextFloat (s : State) : Host.Outcome State Fault Refusal :=
  runMotherCommand .mgNextFloat s
    (ifSeeded s.mgSeeded (.completes (floatConvert (mgDraw s).1) (mgDraw s).2))

/-- MG_BIASED_RANGE (R215): exactly one draw. -/
def execMgBiasedRange (min max : Word) (s : State) : Host.Outcome State Fault Refusal :=
  runMotherCommand (.mgBiasedRange min max) s
    (ifSeeded s.mgSeeded (withInterval min max fun interval =>
      .completes (biasedResult min (mgDraw s).1 interval) (mgDraw s).2))

end Sys2Proof.Machine
end

