-- ==== Sys2Proof/Machine/MtSeed.lean ====
section
/-! DEFINITION. MT unit seeding (40_mt_seeding.md): MT_INIT (R121) and MT_INIT_ARRAY (R123, R124). -/

namespace Sys2Proof.Machine

/-- `w ^ (w >> k)`, the mix both seeding recurrences use (R121, R123). -/
def xorShift (k : Nat) (w : Word) : Word := w ^^^ (w >>> k)

/-- Word `i` of R121 from word `i-1`. -/
def seedNext (c : Config) (w : Word) (i : Nat) : Word := c.mtF * xorShift c.mtFS w + BitVec.ofNat 32 i

/-- A word and the `n` words R121 computes after it, the first of them word `i`. -/
def seedWords (c : Config) : (n i : Nat) → Word → List Word
  | 0, _, w => [w]
  | n + 1, i, w => w :: seedWords c n (i + 1) (seedNext c w i)

theorem length_seedWords (c : Config) (n i : Nat) (w : Word) : (seedWords c n i w).length = n + 1 := by
  induction n generalizing i w with
  | zero => rfl
  | succ n ih => simp [seedWords, ih]

/-- The 624 words R121 writes: `mt[0] = seed`, then words 1 to 623. -/
def seedBlock (c : Config) (seed : Word) : Block :=
  ⟨seedWords c 623 1 seed, length_seedWords c 623 1 seed⟩

/-- The assignments of R121's body. -/
def State.mtInit (s : State) (seed : Word) : State :=
  { s with mt := seedBlock s.cfg seed, index := 624, lastInterval := 0, mtSeeded := true }

/-- MT_INIT (R121). -/
def execMtInit (seed : Word) (s : State) : Host.Outcome State Fault Refusal :=
  .next (runCommand (.mtInit seed) s (.completes noResult (s.mtInit seed)))

/-! ### Array seeding. The two passes of R123 walk `mt[1..623]` in a circle, each step rewriting `mt[i]` from `mt[i-1]`. The walk is held
as a cursor into the list of words, so that a step costs the same wherever it stands; `arraySeedLoop` of Machine/Pseudocode.lean is
R123's own loop, and the statement ArraySeedingIsThePseudocode says the two leave the same register (entry 12). -/

/-- Where the walk of R123 stands. -/
structure SeedCursor where
  /-- The `i` of R123, in 1..623. -/
  i : Nat
  /-- `mt[i-1]`. -/
  last : Word
  /-- `mt[i-1], ..., mt[1]`: the words passed since the last wrap, the latest first. -/
  passed : List Word
  /-- `mt[i], ..., mt[623]`. -/
  ahead : List Word
deriving DecidableEq, Repr

/-- The walk at its start: `i = 1`. -/
def seedCursorStart (c : Config) (seed : Word) : SeedCursor :=
  { i := 1, last := seed, passed := [], ahead := (seedWords c 623 1 seed).tail }

/-- One step of either pass: `mt[i] <- f mt[i-1] mt[i] i`, then `i <- i + 1`, and at the end of the register
`mt[0] <- mt[623]; i <- 1` (R123). `mt[0]` is `last` whenever `i = 1`. -/
def seedCursorStep (f : Word → Word → Nat → Word) (k : SeedCursor) : SeedCursor :=
  match k.ahead with
  | [] => k
  | old :: rest =>
    let new := f k.last old k.i
    match rest with
    | [] => { i := 1, last := new, passed := [], ahead := (new :: k.passed).reverse }
    | _ :: _ => { i := k.i + 1, last := new, passed := new :: k.passed, ahead := rest }

/-- The first pass (R123): one step for each pair of a seed word and its index `j`. -/
def arrayPassOne (c : Config) (pairs : List (Word × Nat)) (k : SeedCursor) : SeedCursor :=
  pairs.foldl
    (fun k p => seedCursorStep (fun last old _ => (old ^^^ xorShift 30 last * c.mtK1) + p.1 + BitVec.ofNat 32 p.2) k) k

/-- The second pass (R123): `n` steps. -/
def arrayPassTwo (c : Config) : (n : Nat) → SeedCursor → SeedCursor
  | 0, k => k
  | n + 1, k =>
    arrayPassTwo c n (seedCursorStep (fun last old i => (old ^^^ xorShift 30 last * c.mtK2) - BitVec.ofNat 32 i) k)

/-- The first `n` entries of a list taken in a circle, from `rest` on. -/
def takeCyclic {α : Type} (whole : List α) : (n : Nat) → (rest : List α) → List α
  | 0, _ => []
  | n + 1, x :: rest => x :: takeCyclic whole n rest
  | n + 1, [] =>
    match whole with
    | [] => []
    | x :: rest => x :: takeCyclic whole n rest

/-- The pairs `(seeds[j], j)` of the first pass: `max(624, L)` steps, `j` running over `0..L-1` in a circle (R123). -/
def seedPairs (seeds : List Word) : List (Word × Nat) :=
  takeCyclic seeds.zipIdx (max 624 seeds.length) seeds.zipIdx

/-- The walk after both passes. -/
def arraySeedWalk (c : Config) (seeds : List Word) : SeedCursor :=
  arrayPassTwo c 623 (arrayPassOne c (seedPairs seeds) (seedCursorStart c c.mtArraySeed))

/-- A cursor holds `mt[1..623]` and no more. -/
abbrev SeedCursorFull (k : SeedCursor) : Prop := k.passed.length + k.ahead.length = 623

theorem seedCursorStep_full {f : Word → Word → Nat → Word} {k : SeedCursor} (h : SeedCursorFull k) :
    SeedCursorFull (seedCursorStep f k) := by
  obtain ⟨i, last, passed, ahead⟩ := k
  cases ahead with
  | nil => exact h
  | cons old rest =>
    cases rest with
    | nil => simp_all [seedCursorStep, SeedCursorFull]
    | cons x xs => simp_all [seedCursorStep, SeedCursorFull]; omega

theorem arrayPassOne_full {c : Config} {pairs : List (Word × Nat)} {k : SeedCursor} (h : SeedCursorFull k) :
    SeedCursorFull (arrayPassOne c pairs k) := by
  unfold arrayPassOne
  induction pairs generalizing k with
  | nil => exact h
  | cons p ps ih => exact ih (seedCursorStep_full h)

theorem arrayPassTwo_full {c : Config} {n : Nat} {k : SeedCursor} (h : SeedCursorFull k) :
    SeedCursorFull (arrayPassTwo c n k) := by
  induction n generalizing k with
  | zero => exact h
  | succ n ih => exact ih (seedCursorStep_full h)

theorem seedCursorStart_full (c : Config) (seed : Word) : SeedCursorFull (seedCursorStart c seed) := by
  simp [seedCursorStart, SeedCursorFull, length_seedWords]

/-- The register after `ArraySeed` (R123): `mt[0] <- MT_ARRAY_W0`, and the walked words. -/
def arraySeedWords (c : Config) (seeds : List Word) : List Word :=
  let k := arraySeedWalk c seeds
  c.mtArrayW0 :: (k.passed.reverse ++ k.ahead)

theorem length_arraySeedWords (c : Config) (seeds : List Word) : (arraySeedWords c seeds).length = 624 := by
  have h : SeedCursorFull (arraySeedWalk c seeds) := arrayPassTwo_full (arrayPassOne_full (seedCursorStart_full c _))
  simpa [arraySeedWords] using h

/-- The register that MT_INIT_ARRAY leaves (R124): MT_INIT with `MT_ARRAY_SEED`, then `ArraySeed`. -/
def arraySeedBlock (c : Config) (seeds : List Word) : Block :=
  ⟨arraySeedWords c seeds, length_arraySeedWords c seeds⟩

/-- The assignments of R124 once `seeds` are popped. -/
def State.mtInitArray (s : State) (seeds : List Word) : State :=
  { s with mt := arraySeedBlock s.cfg seeds, index := 624, lastInterval := 0, mtSeeded := true }

/-- MT_INIT_ARRAY (R124). With fewer than `length` words queued the command stays in execution with everything unchanged, and runs
again when the host has appended one (20_memory.md R74, 70_reset_and_hazards.md R292; entry 6). -/
def execMtInitArray (length : Word) (s : State) : Host.Outcome State Fault Refusal :=
  .next (runCommand (.mtInitArray length) s
    (match lengthCheck length with
     | none => .faults .precondLength
     | some n =>
       if s.seedq.length < n then .waits s
       else .completes noResult ({ s with seedq := s.seedq.drop n }.mtInitArray (s.seedq.take n))))

end Sys2Proof.Machine
end

