-- ==== Sys2Proof/Machine/System.lean ====
section
/-! DEFINITION. The system command STAT (45_system.md R230). -/

namespace Sys2Proof.Machine

/-- STAT (R230): the one command that is not refused while halted (60_exceptions.md R244); it changes nothing. -/
def execStat (s : State) : Host.Outcome State Fault Refusal :=
  .next (s.respond (okResponse (wordResult (statusRegister s))))

end Sys2Proof.Machine
end

