-- ==== Sys2Proof/Machine/Dispatch.lean ====
section
/-! DEFINITION. The meaning of every command (30_encoding.md R93), one arm per constructor of `Instr`. -/

namespace Sys2Proof.Machine

def exec (i : Instr) (s : State) : Host.Outcome State Fault Refusal :=
  match i with
  | .mtInit seed => Sys2Proof.Machine.execMtInit seed s
  | .mtInitArray length => Sys2Proof.Machine.execMtInitArray length s
  | .mtNextWord => Sys2Proof.Machine.execMtNextWord s
  | .mtNextFloat => Sys2Proof.Machine.execMtNextFloat s
  | .mtBiasedRange min max => Sys2Proof.Machine.execMtBiasedRange min max s
  | .mtExactRange min max => Sys2Proof.Machine.execMtExactRange min max s
  | .mgInit seed => Sys2Proof.Machine.execMgInit seed s
  | .mgNextWord => Sys2Proof.Machine.execMgNextWord s
  | .mgNextFloat => Sys2Proof.Machine.execMgNextFloat s
  | .mgBiasedRange min max => Sys2Proof.Machine.execMgBiasedRange min max s
  | .stat => Sys2Proof.Machine.execStat s

end Sys2Proof.Machine
end

