-- ==== Sys2Proof/Decode.lean ====
section
/-! DEFINITION. Decoding and encoding of command words (30_encoding.md R90 to R94, R101). Decoding is total on all `2^72` words: a
reserved opcode is rejected by name. -/

namespace Sys2Proof

/-- Why a word is no command. -/
inductive DecodeError where
  /-- The opcode is one of the reserved values of R94. -/
  | reservedOpcode (op : BitVec 8)
deriving DecidableEq, Repr

/-- `CMD[71:64]`, the opcode (R90). -/
def commandOp (w : CommandWord) : BitVec 8 := w.extractLsb' 64 8

/-- `CMD[63:32]`, the first operand (R90). -/
def commandA (w : CommandWord) : Word := w.extractLsb' 32 32

/-- `CMD[31:0]`, the second operand (R90). -/
def commandB (w : CommandWord) : Word := w.extractLsb' 0 32

/-- `CMD = {op, a, b}` (R90, R101). -/
def commandWord (op : BitVec 8) (a b : Word) : CommandWord := op ++ a ++ b

/-- The opcode map of R93, matched on the opcode alone; operand fields a format ignores are not looked at (R91). -/
def decode (w : CommandWord) : Except DecodeError Instr :=
  match commandOp w with
  | 0x00#8 => .ok (.mtInit (commandA w))
  | 0x01#8 => .ok (.mtInitArray (commandA w))
  | 0x02#8 => .ok .mtNextWord
  | 0x03#8 => .ok .mtNextFloat
  | 0x04#8 => .ok (.mtBiasedRange (commandA w) (commandB w))
  | 0x05#8 => .ok (.mtExactRange (commandA w) (commandB w))
  | 0x10#8 => .ok (.mgInit (commandA w))
  | 0x12#8 => .ok .mgNextWord
  | 0x13#8 => .ok .mgNextFloat
  | 0x14#8 => .ok (.mgBiasedRange (commandA w) (commandB w))
  | 0x20#8 => .ok .stat
  | op => .error (.reservedOpcode op)

/-- The canonical encoding of R101: fields the format ignores are zero. -/
def encode : Instr → CommandWord
  | .mtInit seed => commandWord 0x00 seed 0
  | .mtInitArray length => commandWord 0x01 length 0
  | .mtNextWord => commandWord 0x02 0 0
  | .mtNextFloat => commandWord 0x03 0 0
  | .mtBiasedRange min max => commandWord 0x04 min max
  | .mtExactRange min max => commandWord 0x05 min max
  | .mgInit seed => commandWord 0x10 seed 0
  | .mgNextWord => commandWord 0x12 0 0
  | .mgNextFloat => commandWord 0x13 0 0
  | .mgBiasedRange min max => commandWord 0x14 min max
  | .stat => commandWord 0x20 0 0

/-- The command in the low `nbits` bits of `w`, every bit above them zero. A command is one 72-bit word numbered from its least
significant bit (R8, R90), which is the numbering of spec/opcode_table.json, so there is nothing to lay out. -/
def tableCommandWord (nbits w : Nat) : CommandWord := BitVec.ofNat 72 (w % 2 ^ nbits)

/-- The command the decoder reads from a word of `nbits` bits; nothing longer than 72 bits is a command. -/
def decodeTableWord (nbits w : Nat) : Option Instr :=
  if nbits ≤ 72 then
    match decode (tableCommandWord nbits w) with
    | .ok i => some i
    | .error _ => none
  else none

end Sys2Proof
end

