-- ==== Sys2Proof/Machine/HostSide.lean ====
section
/-! DEFINITION. What happens next at the block's inputs: taking a command, a seed word or a reset (20_memory.md R74, R80;
70_reset_and_hazards.md R280, R291, R292), and how a word is placed for the next step to run. -/

namespace Sys2Proof.Machine

/-- What one step comes to. -/
inductive Turn where
  /-- The block executes a command on a state. -/
  | run (i : Instr) (s : State)
  /-- Nothing is executed: the state after the step. -/
  | settled (s : State)
deriving DecidableEq, Repr

/-- A command taken from the command channel (R90, R93, R245). -/
def takeCommand (w : CommandWord) (s : State) : Turn :=
  match decode w with
  | .ok i => .run i s
  | .error _ => .settled s.illegalCommand

/-- The next turn. While a command is in execution no other is taken (R291): a reset ends it without a response (R280), and otherwise
it runs on, with the seed word the host appends meanwhile, if any (R74, R292). While none is, the block waits for the host (R280,
R296). Which host input comes next is the order of `inputs` (entry 3). -/
def nextTurn (s : State) : Turn :=
  match s.executing with
  | some i =>
    match s.inputs with
    | .reset :: rest => .settled { s with inputs := rest }.hostReset
    | .seedWord w :: rest => .run i ({ s with inputs := rest }.appendSeed w)
    | .command _ :: _ => .run i s
    | [] => .run i s
  | none =>
    match s.inputs with
    | .reset :: rest => .settled { s with inputs := rest }.hostReset
    | .seedWord w :: rest => .settled ({ s with inputs := rest }.appendSeed w)
    | .command w :: rest => takeCommand w { s with inputs := rest }
    | [] => .settled s

/-- The state with `w` presented as the host's next command, and no command in execution, so that it is taken at once. -/
def State.presentNext (s : State) (w : CommandWord) : State :=
  { s with inputs := .command w :: s.inputs, executing := none }

end Sys2Proof.Machine
end

