-- ==== Sys2Proof/Machine/Step.lean ====
section
/-! DEFINITION. One step of the block under its host. -/

namespace Sys2Proof.Machine

/-- One step: the host's next input is taken, and a command taken or in execution is executed (20_memory.md R80). -/
def step (s : State) : Host.Outcome State Fault Refusal :=
  match nextTurn s with
  | .run i t => exec i t
  | .settled t => .next t

/-- The state with the command in the low `nbits` bits of `w` presented next (entry 4). -/
def State.withFetchWord (s : State) (nbits w : Nat) : State := s.presentNext (tableCommandWord nbits w)

end Sys2Proof.Machine
end

