-- ==== Sys2Proof/Machine/Pseudocode.lean ====
section
/-! DEFINITION. The spec's loops over the register and the history as its pseudocode writes them: statement by statement, in place.
The machine's own definitions (MtSeed, MtDraw, Mother) compute the same words in one pass; the statements that say so are in
Certificates/Slice0/Obligations.lean, and claims about the machine are stated in the terms of this file (entry 12). -/

namespace Sys2Proof.Machine

/-- `mt[i]`. Every index a rule forms is in 0..623 (20_memory.md R72), so the value outside is never used. -/
def mtWord (mt : Block) (i : Nat) : Word := mt.words[i]?.getD 0

/-- `mt[i] <- v`. -/
def mtSet (mt : Block) (i : Nat) (v : Word) : Block := ⟨mt.words.set i v, by rw [List.length_set]; exact mt.size⟩

/-- `for i = start, start + 1, ..., count of them in ascending order: body`. -/
def forAscending (body : Nat → Block → Block) : (count start : Nat) → Block → Block
  | 0, _, mt => mt
  | n + 1, i, mt => forAscending body n (i + 1) (body i mt)

/-- The loop of MT_INIT on `mt` (40_mt_seeding.md R121). -/
def seedLoop (c : Config) (seed : Word) (mt : Block) : Block :=
  forAscending
    (fun i mt => mtSet mt i (c.mtF * (mtWord mt (i - 1) ^^^ (mtWord mt (i - 1) >>> c.mtFS)) + BitVec.ofNat 32 i))
    623 1 (mtSet mt 0 seed)

/-- The loop of `Regenerate()` on `mt` (41_mt_draw.md R141). -/
def regenerateLoop (c : Config) (mt : Block) : Block :=
  forAscending
    (fun i mt =>
      let y := (mtWord mt i &&& 0x80000000) ||| (mtWord mt ((i + 1) % 624) &&& 0x7FFFFFFF)
      mtSet mt i (mtWord mt ((i + 397) % 624) ^^^ (y >>> 1) ^^^ (if y.getLsbD 0 then c.mtA else 0)))
    624 0 mt

/-- The locals of `ArraySeed` (R123) beside the register. -/
structure ArraySeedVars where
  mt : Block
  i : Nat
  j : Nat

/-- `i <- i + 1`, and `if i >= 624: mt[0] <- mt[623] ; i <- 1` (R123). -/
def arraySeedNextI (v : ArraySeedVars) : ArraySeedVars :=
  if v.i + 1 ≥ 624 then { v with mt := mtSet v.mt 0 (mtWord v.mt 623), i := 1 } else { v with i := v.i + 1 }

/-- One turn of the first pass of R123. -/
def arraySeedTurnOne (c : Config) (seeds : List Word) (v : ArraySeedVars) : ArraySeedVars :=
  let p := mtWord v.mt (v.i - 1) ^^^ (mtWord v.mt (v.i - 1) >>> 30)
  let new := (mtWord v.mt v.i ^^^ (p * c.mtK1)) + seeds[v.j]?.getD 0 + BitVec.ofNat 32 (v.j % 2 ^ 32)
  let v := arraySeedNextI { v with mt := mtSet v.mt v.i new }
  { v with j := if v.j + 1 ≥ seeds.length then 0 else v.j + 1 }

/-- One turn of the second pass of R123. -/
def arraySeedTurnTwo (c : Config) (v : ArraySeedVars) : ArraySeedVars :=
  let p := mtWord v.mt (v.i - 1) ^^^ (mtWord v.mt (v.i - 1) >>> 30)
  arraySeedNextI { v with mt := mtSet v.mt v.i ((mtWord v.mt v.i ^^^ (p * c.mtK2)) - BitVec.ofNat 32 v.i) }

/-- `repeat n times: turn`. -/
def repeatTimes {α : Type} (turn : α → α) : (n : Nat) → α → α
  | 0, a => a
  | n + 1, a => repeatTimes turn n (turn a)

/-- `ArraySeed(seeds, L)` on `mt` (R123). -/
def arraySeedLoop (c : Config) (seeds : List Word) (mt : Block) : Block :=
  let v := repeatTimes (arraySeedTurnOne c seeds) (max 624 seeds.length) { mt := mt, i := 1, j := 0 }
  mtSet (repeatTimes (arraySeedTurnTwo c) 623 v).mt 0 c.mtArrayW0

/-- `MtDraw()` (R144) over the loop of R141: the word returned, the register and the cursor after it. -/
def mtDrawLoop (c : Config) (mt : Block) (index : BitVec 10) : Word × Block × BitVec 10 :=
  let mt' := if index.toNat ≥ 624 then regenerateLoop c mt else mt
  let index' := if index.toNat ≥ 624 then 0 else index
  (temper c (mtWord mt' index'.toNat), mt', index' + 1)

/-- `MgDraw()` (44_mother.md R212), assignment by assignment: the word returned and the history after it. -/
def mgDrawLoop (c : Config) (hist : History) : Word × History :=
  let sum := c.mgW3.toNat * hist[3].toNat + c.mgW2.toNat * hist[2].toNat + c.mgW1.toNat * hist[1].toNat
    + c.mgW0.toNat * hist[0].toNat + hist[4].toNat
  let hist := hist.set 3 hist[2]
  let hist := hist.set 2 hist[1]
  let hist := hist.set 1 hist[0]
  let hist := hist.set 0 (BitVec.ofNat 32 (sum % 2 ^ 32))
  let hist := hist.set 4 (BitVec.ofNat 32 (sum / 2 ^ 32))
  (hist[0], hist)

end Sys2Proof.Machine
end

