-- ==== Sys2Proof/Safety.lean ====
section
/-! DEFINITION. What counts as a good state and a finished run, and the terms in which claims are stated. -/

namespace Sys2Proof.Machine

/-! ### Invariants of the block -/

/-- `index` is always in `[0,624]` (10_state.md R34). -/
abbrev State.IndexInRange (s : State) : Prop := s.index.toNat ≤ 624

/-- The cached interval is 0 or at most `2^31`, and the limit is the interval's own (10_state.md R39). -/
abbrev State.CacheConsistent (s : State) : Prop :=
  s.lastInterval ≠ 0 →
    s.lastInterval.toNat ≤ 2 ^ 31 ∧ s.rejectionLimit.toNat = rejectionLimitOf s.lastInterval.toNat

/-- `rejectionLimit` holds a legal value (10_state.md R30, R38). -/
abbrev State.LimitLegal (s : State) : Prop := 1 ≤ s.rejectionLimit.toNat ∧ s.rejectionLimit.toNat ≤ 2 ^ 32

/-- `fault_code` is 0 while `halt = 0`, and one of the codes 1 to 4 while `halt = 1` (10_state.md R48, 60_exceptions.md R241). -/
abbrev State.FaultLatchConsistent (s : State) : Prop :=
  if s.halt then s.faultCode ∈ [1, 2, 3, 4] else s.faultCode = 0

/-- No command is in execution while the block is halted: a command taken then is answered at once (60_exceptions.md R244). -/
abbrev State.HaltedIdle (s : State) : Prop := s.halt = true → s.executing = none

/-- A response has `code = 0` when `err = 0`, and one of the codes of 60_exceptions.md R241 with `value = 0` when `err = 1`
(30_encoding.md R96). -/
abbrev ResponseLegal (r : ResponseWord) : Prop :=
  if responseErr r then responseCode r ∈ [1, 2, 3, 4, 7] ∧ responseValue r = 0 else responseCode r = 0

/-- The invariant of the block: what every step keeps. -/
structure State.Inv (s : State) : Prop where
  index : s.IndexInRange
  cache : s.CacheConsistent
  limit : s.LimitLegal
  latch : s.FaultLatchConsistent
  idle : s.HaltedIdle
  responses : ∀ r ∈ s.responses, ResponseLegal r

/-! ### The units -/

/-- The commands of the MT unit (30_encoding.md R93). -/
def mtCommand : Instr → Bool
  | .mtInit _ => true
  | .mtInitArray _ => true
  | .mtNextWord => true
  | .mtNextFloat => true
  | .mtBiasedRange _ _ => true
  | .mtExactRange _ _ => true
  | .mgInit _ => false
  | .mgNextWord => false
  | .mgNextFloat => false
  | .mgBiasedRange _ _ => false
  | .stat => false

/-- The commands of the MG unit (R93). -/
def mgCommand : Instr → Bool
  | .mtInit _ => false
  | .mtInitArray _ => false
  | .mtNextWord => false
  | .mtNextFloat => false
  | .mtBiasedRange _ _ => false
  | .mtExactRange _ _ => false
  | .mgInit _ => true
  | .mgNextWord => true
  | .mgNextFloat => true
  | .mgBiasedRange _ _ => true
  | .stat => false

/-- The commands that read the state of the MT unit, and so need it seeded (60_exceptions.md R246). -/
def mtDrawing : Instr → Bool
  | .mtInit _ => false
  | .mtInitArray _ => false
  | .mtNextWord => true
  | .mtNextFloat => true
  | .mtBiasedRange _ _ => true
  | .mtExactRange _ _ => true
  | .mgInit _ => false
  | .mgNextWord => false
  | .mgNextFloat => false
  | .mgBiasedRange _ _ => false
  | .stat => false

/-- The commands that read the state of the MG unit (R246). -/
def mgDrawing : Instr → Bool
  | .mtInit _ => false
  | .mtInitArray _ => false
  | .mtNextWord => false
  | .mtNextFloat => false
  | .mtBiasedRange _ _ => false
  | .mtExactRange _ _ => false
  | .mgInit _ => false
  | .mgNextWord => true
  | .mgNextFloat => true
  | .mgBiasedRange _ _ => true
  | .stat => false

/-- Two states with the same MT unit (10_state.md R30). -/
structure SameMt (s t : State) : Prop where
  mt : s.mt = t.mt
  index : s.index = t.index
  lastInterval : s.lastInterval = t.lastInterval
  rejectionLimit : s.rejectionLimit = t.rejectionLimit
  mtSeeded : s.mtSeeded = t.mtSeeded

/-- Two states with the same MG unit (10_state.md R30, R43). -/
structure SameMg (s t : State) : Prop where
  hist : s.hist = t.hist
  mgSeeded : s.mgSeeded = t.mgSeeded

/-- Two states whose MT units no response can tell apart: the rejection cache is left out (10_state.md R40). -/
structure MtAlike (s t : State) : Prop where
  cfg : s.cfg = t.cfg
  mt : s.mt = t.mt
  index : s.index = t.index
  mtSeeded : s.mtSeeded = t.mtSeeded
  halt : s.halt = t.halt
  seedq : s.seedq = t.seedq

/-- What `t` differs in from `s` after a fault with code `c` (60_exceptions.md R242): the latch, the code and one response. -/
def faultEntry (s : State) (c : BitVec 3) : State :=
  { s with halt := true, faultCode := c, responses := s.responses ++ [1#1 ++ c ++ 0#64], executing := none }

/-- The state after a command completed with `value` from the state `t`: one response more, no command in execution. -/
def answered (t : State) (value : BitVec 64) : State :=
  { t with responses := t.responses ++ [0#1 ++ 0#3 ++ value], executing := none }

/-- The state after one draw of the MT unit, in the terms of Machine/Pseudocode.lean. -/
def afterMtDraw (s : State) : State :=
  { s with mt := (mtDrawLoop s.cfg s.mt s.index).2.1, index := (mtDrawLoop s.cfg s.mt s.index).2.2 }

/-- The word that draw returns. -/
def mtDrawnWord (s : State) : Word := (mtDrawLoop s.cfg s.mt s.index).1

/-- The state after `n` draws of the MT unit. -/
def afterMtDraws : Nat → State → State
  | 0, s => s
  | n + 1, s => afterMtDraws n (afterMtDraw s)

/-- The state after one draw of the MG unit, in the terms of Machine/Pseudocode.lean. -/
def afterMgDraw (s : State) : State := { s with hist := (mgDrawLoop s.cfg s.hist).2 }

/-- The word that draw returns. -/
def mgDrawnWord (s : State) : Word := (mgDrawLoop s.cfg s.hist).1

/-- The state after `n` draws of the MG unit. -/
def afterMgDraws : Nat → State → State
  | 0, s => s
  | n + 1, s => afterMgDraws n (afterMgDraw s)

/-! ### Values of floating-point patterns -/

/-- The real number of a binary64 pattern that is zero or normal (00_scope.md R9): sign bit 63, exponent bits 62:52 with bias 1023,
fraction bits 51:0. The block produces no other patterns (42_float_converter.md R168). -/
def floatValue (b : BitVec 64) : ℚ :=
  let sign : ℚ := if b.getLsbD 63 then -1 else 1
  let exponent := (b.extractLsb' 52 11).toNat
  let fraction := (b.extractLsb' 0 52).toNat
  if exponent = 0 then 0 else sign * (1 + (fraction : ℚ) / 2 ^ 52) * (2 : ℚ) ^ ((exponent : ℤ) - 1023)

/-! ### Runs -/

/-- A block with parameters `c` just after reset, before a host that will do `inputs`. -/
def State.boot (c : Config) (inputs : List HostInput) : State := { State.reset with cfg := c, inputs := inputs }

/-- The commands the host will still present in the run under way, which the next reset ends (70_reset_and_hazards.md R296). -/
def commandsAhead : List HostInput → List CommandWord
  | [] => []
  | .command w :: rest => w :: commandsAhead rest
  | .seedWord _ :: rest => commandsAhead rest
  | .reset :: _ => []

/-- The run has ended (R296): the response to its last command has been sent, so none is in execution and none is still to come. Seed
words may still follow. That a later reset in the host's list starts another run, and that a run of no command has ended at once, is
the model's reading (entry 22). -/
abbrev State.runEnded (s : State) : Prop := s.executing = none ∧ commandsAhead s.inputs = []

/-- It has ended cleanly (R296). -/
abbrev State.endedCleanly (s : State) : Prop := s.runEnded ∧ s.halt = false

/-- The lines of the assembler (30_encoding.md R100), its pseudo-commands among them. -/
inductive Line where
  /-- A command line whose operands stand in the command word. -/
  | command (i : Instr)
  /-- `MT_INIT_ARRAY [w0, ..., wL-1]`. -/
  | mtInitArray (seeds : List Word)
  /-- `RESET`. -/
  | reset
  /-- `MT_NEW seed`. -/
  | mtNew (seed : Word)
  /-- `MG_NEW seed`. -/
  | mgNew (seed : Word)
deriving DecidableEq, Repr

/-- What the host does for a line (R100, R101). -/
def Line.inputs : Line → List HostInput
  | .command i => [.command (encode i)]
  | .mtInitArray seeds =>
    seeds.map .seedWord ++ [.command (encode (.mtInitArray (BitVec.ofNat 32 seeds.length)))]
  | .reset => [.reset]
  | .mtNew seed => [.reset, .command (encode (.mtInit seed))]
  | .mgNew seed => [.reset, .command (encode (.mgInit seed))]

end Sys2Proof.Machine
end

