-- ==== Sys2Proof/WellFormed.lean ====
section
/-! DEFINITION. What a well-formed command, command word and configuration are. -/

namespace Sys2Proof

/-- Every operand of every command is the 32 bits of its field, unscaled and unsplit (30_encoding.md R92), and every value of a
field is a command (R91). So every term of `Instr` is well formed; bounds on values (`max < min`, `length < 1`) are faults of the
command, not of its form (60_exceptions.md R247). -/
def Instr.wf : Instr → Bool
  | .mtInit _ => true
  | .mtInitArray _ => true
  | .mtNextWord => true
  | .mtNextFloat => true
  | .mtBiasedRange _ _ => true
  | .mtExactRange _ _ => true
  | .mgInit _ => true
  | .mgNextWord => true
  | .mgNextFloat => true
  | .mgBiasedRange _ _ => true
  | .stat => true

/-- The format of an assigned opcode (R91, R93); none for a reserved one (R94). -/
def formatOf (op : BitVec 8) : Option Format :=
  match op with
  | 0x00#8 | 0x10#8 => some .s
  | 0x01#8 => some .v
  | 0x02#8 | 0x03#8 | 0x12#8 | 0x13#8 | 0x20#8 => some .z
  | 0x04#8 | 0x05#8 | 0x14#8 => some .r
  | _ => none

/-- A canonical command word (R101): an assigned opcode, and zero in every field its format ignores (R91). -/
def isCanonical (w : CommandWord) : Bool :=
  match formatOf (commandOp w) with
  | some .z => commandA w == 0 && commandB w == 0
  | some .s => commandB w == 0
  | some .v => commandB w == 0
  | some .r => true
  | none => false

/-- A configuration whose meaning the model gives in full: the constraint of 00_scope.md R7. The two duties that the spec puts on whoever
configures other constants are no part of it, and a configuration that fails them runs like any other (DESIGN CHOICE, entry 21):
that MG_INIT stays clear of the fixed points (44_mother.md R213), and that the golden vector holds (92_eei_decisions.md section 2). -/
def Config.wf (c : Config) : Bool := c.weightsFit

end Sys2Proof
end

