-- ==== Sys2Proof/Certificates/Slice0/Obligations.lean ====
section
/-! DEFINITION. The statements about the model, each from rules of spec/. They speak of the spec's own loops (Machine/Pseudocode.lean),
of field values and of whole next states, so that what an instruction leaves unchanged is said with what it changes. -/

open Sys2Proof Sys2Proof.Machine

/-! ### Encoding (30_encoding.md) -/

/-- R90, R91, R93, R101: every command is read back from its canonical encoding, with every operand at every value. -/
def Obligations.EveryCommandIsReadBack : Prop := ∀ i : Instr, decode (encode i) = .ok i

/-- R91, R101: the canonical words are exactly the encodings of commands. -/
def Obligations.CanonicalWordsAreTheEncodings : Prop :=
  ∀ w : CommandWord, isCanonical w = true ↔ ∃ i, encode i = w

/-- R91: decoding then encoding gives the word back up to the fields the command's format ignores, which become zero; and a value in
an ignored field does not change the command. -/
def Obligations.IgnoredFieldsAreDropped : Prop :=
  ∀ (w : CommandWord) (i : Instr), decode w = .ok i →
    match i.format with
    | .z => encode i = commandWord (commandOp w) 0 0 ∧ ∀ a b, decode (commandWord (commandOp w) a b) = .ok i
    | .s => encode i = commandWord (commandOp w) (commandA w) 0 ∧ ∀ b, decode (commandWord (commandOp w) (commandA w) b) = .ok i
    | .v => encode i = commandWord (commandOp w) (commandA w) 0 ∧ ∀ b, decode (commandWord (commandOp w) (commandA w) b) = .ok i
    | .r => encode i = w

/-- R93, R94: a word is rejected, by its opcode, exactly when the opcode is none of the eleven of the map. -/
def Obligations.ReservedOpcodesAreRejected : Prop :=
  ∀ w : CommandWord,
    (commandOp w ∉ [0x00, 0x01, 0x02, 0x03, 0x04, 0x05, 0x10, 0x12, 0x13, 0x14, 0x20] →
      decode w = .error (.reservedOpcode (commandOp w))) ∧
    (commandOp w ∈ [0x00, 0x01, 0x02, 0x03, 0x04, 0x05, 0x10, 0x12, 0x13, 0x14, 0x20] → ∃ i, decode w = .ok i)

/-- R101 and 95_test_vectors.md V-ENC: words written out from the encoding decode to the commands they stand for. -/
def Obligations.SpecWordsDecode : Prop :=
  decode 0x000000000100000000 = .ok (.mtInit 1) ∧
  decode 0x010000000400000000 = .ok (.mtInitArray 4) ∧
  decode 0x02DEADBEEF12345678 = .ok .mtNextWord ∧
  decode 0x04FFFFFFFB00000005 = .ok (.mtBiasedRange 0xFFFFFFFB 5) ∧
  decode 0x05FFFFFF9C00000064 = .ok (.mtExactRange 0xFFFFFF9C 100) ∧
  decode 0x10FFFFFFFF00000000 = .ok (.mgInit 0xFFFFFFFF) ∧
  decode 0x140000000100000006 = .ok (.mgBiasedRange 1 6) ∧
  decode 0x200000000000000000 = .ok .stat ∧
  decode 0x110000000000000000 = .error (.reservedOpcode 0x11)

/-- R96: the fields of a response word, for the two forms the block sends. -/
def Obligations.ResponseFieldsAsTabled : Prop :=
  ∀ (value : BitVec 64) (code : BitVec 3),
    responseErr (okResponse value) = false ∧ responseCode (okResponse value) = 0 ∧ responseValue (okResponse value) = value ∧
    responseErr (errResponse code) = true ∧ responseCode (errResponse code) = code ∧ responseValue (errResponse code) = 0

/-! ### The step and the host (20_memory.md, 70_reset_and_hazards.md) -/

/-- R80, R90, R291: with no command in execution, a presented word that decodes to a command is executed as that command, on the state
without it; a command in execution runs on, with the seed word the host appends meanwhile, if any (R74, R292); and a word placed by
`withFetchWord` is the one executed. That the host's actions are one list, and that a command presented early stays at its front, is the
model's (entries 3, 4 and 13). -/
def Obligations.StepRunsTheDecodedCommand : Prop :=
  (∀ (s : State) (w : CommandWord) (rest : List HostInput) (i : Instr), s.executing = none → s.inputs = .command w :: rest →
    decode w = .ok i → step s = exec i { s with inputs := rest }) ∧
  (∀ (s : State) (w : CommandWord) (rest : List HostInput) (i : Instr), s.executing = some i → s.inputs = .command w :: rest →
    step s = exec i s) ∧
  (∀ (s : State) (i : Instr), s.executing = some i → s.inputs = [] → step s = exec i s) ∧
  (∀ (s : State) (w : Word) (rest : List HostInput) (i : Instr), s.executing = some i → s.inputs = .seedWord w :: rest →
    step s = exec i { s with inputs := rest, seedq := s.seedq ++ [w] }) ∧
  (∀ (s : State) (w : Nat) (i : Instr), decodeTableWord 72 w = some i →
    step (s.withFetchWord 72 w) = exec i { s with executing := none })

/-- R94, R245, R120 and R243: a presented word with a reserved opcode takes the fault `ILLEGAL_OP` when the block is not halted, and
is refused when it is. -/
def Obligations.ReservedOpcodeFaults : Prop :=
  ∀ (s : State) (w : CommandWord) (rest : List HostInput), s.executing = none → s.inputs = .command w :: rest →
    commandOp w ∉ [0x00, 0x01, 0x02, 0x03, 0x04, 0x05, 0x10, 0x12, 0x13, 0x14, 0x20] →
    (s.halt = false → step s = .next (faultEntry { s with inputs := rest } 1)) ∧
    (s.halt = true → step s =
      .next { s with inputs := rest, responses := s.responses ++ [1#1 ++ 7#3 ++ 0#64], executing := none })

/-- R74, R280, R296: with no command in execution, appending a seed word puts it at the back of `seedq` and changes no other state, halted
or not (R244); with nothing presented either, the block waits, which the model shows as a step to the same state (entries 3 and 4). -/
def Obligations.IdleBlockQueuesSeedWordsOrWaits : Prop :=
  ∀ s : State, s.executing = none →
    (∀ (w : Word) (rest : List HostInput), s.inputs = .seedWord w :: rest →
      step s = .next { s with inputs := rest, seedq := s.seedq ++ [w] }) ∧
    (s.inputs = [] → step s = .next s)

/-- R60, R280, R282: reset taken at any time, a command in execution or not, gives every field the value the spec states, drops the
command without a response, and leaves the parameters. That the record of responses is emptied is the model's reading (entry 5). -/
def Obligations.ResetAtAnyTime : Prop :=
  ∀ (s : State) (rest : List HostInput), s.inputs = .reset :: rest →
    ∃ t, step s = .next t ∧ t.mtSeeded = false ∧ t.mgSeeded = false ∧ t.halt = false ∧ t.faultCode = 0 ∧ t.index = 624 ∧
      t.lastInterval = 0 ∧ t.seedq = [] ∧ t.responses = [] ∧ t.executing = none ∧ t.inputs = rest ∧ t.cfg = s.cfg

/-- R120, R240, R296: every step of a block with legal parameters (00_scope.md R7) answers a next state: no command and no malformed
word stops the machine. -/
def Obligations.EveryStepGoesOn : Prop :=
  ∀ s : State, s.cfg.wf = true → ∃ t, step s = .next t

/-- R80, R90, R96: a command that is executed is answered by exactly one response, after the earlier ones, or stays in execution with
none (entries 5, 6 and 7). -/
def Obligations.OneResponsePerCommand : Prop :=
  ∀ (i : Instr) (s t : State), exec i s = .next t →
    (∃ r, t.responses = s.responses ++ [r] ∧ t.executing = none) ∨ (t.responses = s.responses ∧ t.executing = some i)

/-- R292, R293: the seed words of an MT_INIT_ARRAY may be appended before or after the command is presented; the state in the end is
the same, the command is answered, and every word is used. That the words stay queued until all are there is the model's (entry 6). -/
def Obligations.SeedWordsBeforeOrAfterTheCommand : Prop :=
  ∀ (s : State) (words : List Word) (length : Word), s.halt = false → s.executing = none → s.seedq = [] →
    length.toInt = (words.length : Int) → words ≠ [] →
    ∃ t,
      core.run (words.length + 1)
        { s with inputs := words.map .seedWord ++ [.command (encode (.mtInitArray length))] } = .next t ∧
      core.run (words.length + 1)
        { s with inputs := .command (encode (.mtInitArray length)) :: words.map .seedWord } = .next t ∧
      t.executing = none ∧ t.responses = s.responses ++ [okResponse 0] ∧ t.seedq = [] ∧ t.mtSeeded = true ∧ t.inputs = []

/-! ### The spec's loops (40_mt_seeding.md, 41_mt_draw.md, 44_mother.md) -/

/-- R121: the register that MT_INIT writes is the one the pseudocode's loop leaves, whatever the register held; in it word 0 is the seed
and every later word is the recurrence's value of the word before. -/
def Obligations.SeedingIsThePseudocode : Prop :=
  ∀ (c : Config) (seed : Word) (mt : Block),
    seedBlock c seed = seedLoop c seed mt ∧ mtWord (seedLoop c seed mt) 0 = seed ∧
    ∀ i : Nat, 1 ≤ i → i ≤ 623 →
      mtWord (seedLoop c seed mt) i =
        c.mtF * (mtWord (seedLoop c seed mt) (i - 1) ^^^ (mtWord (seedLoop c seed mt) (i - 1) >>> c.mtFS)) + BitVec.ofNat 32 i

/-- R123: the register that array seeding leaves is the one the pseudocode's two passes leave on a register that MT_INIT has just
filled. -/
def Obligations.ArraySeedingIsThePseudocode : Prop :=
  ∀ (c : Config) (seeds : List Word) (mt : Block), seeds ≠ [] →
    arraySeedBlock c seeds = arraySeedLoop c seeds (seedLoop c c.mtArraySeed mt)

/-- R141: regeneration is the pseudocode's ascending loop in place, in which a read of an index below `i` sees the new word. -/
def Obligations.RegenerationIsThePseudocode : Prop :=
  ∀ (c : Config) (mt : Block), regenerate c mt = regenerateLoop c mt

/-- R142: which reads of the loop see new words. With `o` the register before and `n` after, `n[i]` is made of `o[i]`, of `o[i+1]` (for
`i = 623` of `n[0]`), and of `o[i+397]` for `i <= 226`, of `n[i-227]` from 227 on. -/
def Obligations.RegenerationReadsNewWordsFrom227 : Prop :=
  ∀ (c : Config) (mt : Block) (i : Nat), i ≤ 623 →
    let o := mtWord mt
    let n := mtWord (regenerateLoop c mt)
    let y := (o i &&& 0x80000000) ||| ((if i ≤ 622 then o (i + 1) else n 0) &&& 0x7FFFFFFF)
    n i = (if i ≤ 226 then o (i + 397) else n (i - 227)) ^^^ (y >>> 1) ^^^ (if y.getLsbD 0 then c.mtA else 0)

/-- R122 (b), R125 (b): after either seeding the register is not all zero: one of words 1 to 623 is not zero after MT_INIT, with any
constants; and word 0 is `MT_ARRAY_W0` after MT_INIT_ARRAY, so that the register is not all zero there when that constant is not zero,
as its default `0x80000000`, the spec's general knowledge (entry 8), is not. -/
def Obligations.SeededRegisterIsNotZero : Prop :=
  (∀ (c : Config) (seed : Word) (mt : Block), ∃ i : Nat, 1 ≤ i ∧ i ≤ 623 ∧ mtWord (seedLoop c seed mt) i ≠ 0) ∧
  (∀ (c : Config) (seeds : List Word), mtWord (arraySeedBlock c seeds) 0 = c.mtArrayW0 ∧
    (c.mtArrayW0 ≠ 0 → ∃ i : Nat, i ≤ 623 ∧ mtWord (arraySeedBlock c seeds) i ≠ 0)) ∧
  Config.default.mtArrayW0 = 0x80000000

/-- R143: the worked examples of the tempering transform, with the default constants, which the spec marks as its general knowledge
(entry 8). -/
def Obligations.TemperingExamples : Prop :=
  temper Config.default 0 = 0 ∧ temper Config.default 0x00000001 = 0x00400091 ∧ temper Config.default 0x80000000 = 0x88102204 ∧
  temper Config.default 0xFFFFFFFF = 0x6FE01BF8 ∧ temper Config.default 0x12345678 = 0x2B7E4A2D ∧
  temper Config.default 0x9CB47A9A = 0x6AC1F425

/-- R146: the golden vector and the two other published values: the first words after MT_INIT 1, MT_INIT 5489 and MT_INIT_ARRAY
[0x123, 0x234, 0x345, 0x456], from reset, with the default constants, which the spec marks as its general knowledge (entry 8). -/
def Obligations.GoldenVectors : Prop :=
  (∃ t u, exec (.mtInit 1) State.reset = .next t ∧ exec .mtNextWord t = .next u ∧
    u.responses = [okResponse 0, okResponse 1791095845]) ∧
  (∃ t u, exec (.mtInit 5489) State.reset = .next t ∧ exec .mtNextWord t = .next u ∧
    u.responses = [okResponse 0, okResponse 3499211612]) ∧
  (∃ t u, exec (.mtInitArray 4) { State.reset with seedq := [0x123, 0x234, 0x345, 0x456] } = .next t ∧
    exec .mtNextWord t = .next u ∧ u.responses = [okResponse 0, okResponse 1067595299])

/-- R7, R212: with weights that meet R7 the sum of a draw fits 64 bits, the new word and the new carry together are the whole sum, the
words move by one place, and the carry is at most the sum of the weights. -/
def Obligations.MotherDrawLosesNothing : Prop :=
  ∀ (c : Config) (h : History), c.wf = true →
    let sum := c.mgW3.toNat * h[3].toNat + c.mgW2.toNat * h[2].toNat + c.mgW1.toNat * h[1].toNat
      + c.mgW0.toNat * h[0].toNat + h[4].toNat
    let n := (mgDrawLoop c h).2
    sum < 2 ^ 64 ∧ n[0].toNat + 2 ^ 32 * n[4].toNat = sum ∧ n[1] = h[0] ∧ n[2] = h[1] ∧ n[3] = h[2] ∧
      (mgDrawLoop c h).1 = n[0] ∧
      n[4].toNat ≤ c.mgW0.toNat + c.mgW1.toNat + c.mgW2.toNat + c.mgW3.toNat

/-- R213: with the default weights a draw leaves exactly two histories as they were, all zero and all ones with the carry
`MG_W0+MG_W1+MG_W2+MG_W3-1`; and with the default seeding constants and no warm-up MG_INIT reaches neither. The defaults are the spec's general knowledge (entry 8). -/
def Obligations.MotherFixedPointsAreNotSeeded : Prop :=
  (∀ h : History, (mgDrawLoop Config.default h).2 = h ↔
    h = #v[0, 0, 0, 0, 0] ∨ h = #v[0xFFFFFFFF, 0xFFFFFFFF, 0xFFFFFFFF, 0xFFFFFFFF, 2111119493]) ∧
  (∀ (seed : Word) (s t : State), s.cfg = Config.default → s.halt = false → exec (.mgInit seed) s = .next t →
    (mgDrawLoop t.cfg t.hist).2 ≠ t.hist)

/-! ### The float converter (42_float_converter.md) -/

/-- R161, R162, R165: stage 1 assembles the pattern of `1 + w/2^32`, and the result is the pattern of `w/2^32`, which is their exact
difference with 1. -/
def Obligations.FloatResultIsTheQuotient : Prop :=
  ∀ w : Word, floatValue (floatAssemble w) = 1 + (w.toNat : ℚ) / 2 ^ 32 ∧ floatValue (floatConvert w) = (w.toNat : ℚ) / 2 ^ 32

/-- R163: the fields of the result. For `w = 0` the pattern is `+0`; else, with `2^k <= w < 2^(k+1)`, the sign is 0, the exponent field
`991 + k`, and the fraction `(w - 2^k) << (52 - k)`. -/
def Obligations.FloatResultFields : Prop :=
  floatConvert 0 = 0 ∧
  ∀ (w : Word) (k : Nat), 2 ^ k ≤ w.toNat → w.toNat < 2 ^ (k + 1) →
    (floatConvert w).getLsbD 63 = false ∧ ((floatConvert w).extractLsb' 52 11).toNat = 991 + k ∧
      ((floatConvert w).extractLsb' 0 52).toNat = (w.toNat - 2 ^ k) * 2 ^ (52 - k)

/-- R164: the result is in [0,1), strictly increasing in the word and one-to-one, and at most `1 - 2^-32`, which the largest word gives;
the results are exactly the multiples of `2^-32` in [0,1). -/
def Obligations.FloatResultBounds : Prop :=
  (∀ w : Word, 0 ≤ floatValue (floatConvert w) ∧ floatValue (floatConvert w) < 1 ∧
    floatValue (floatConvert w) ≤ floatValue (floatConvert 0xFFFFFFFF)) ∧
  floatValue (floatConvert 0xFFFFFFFF) = 1 - 1 / 2 ^ 32 ∧
  (∀ v w : Word, v.toNat < w.toNat → floatValue (floatConvert v) < floatValue (floatConvert w)) ∧
  (∀ v w : Word, floatConvert v = floatConvert w → v = w) ∧
  ∀ x : ℚ, (∃ w : Word, floatValue (floatConvert w) = x) ↔ ∃ k : Nat, k < 2 ^ 32 ∧ x = (k : ℚ) / 2 ^ 32

/-! ### The range mapper (43_range_mapper.md) -/

/-- 00_scope.md R9 and R180: `sval` is the two's complement value, and RangeCheck accepts exactly the ranges with `min <= max` and
`max - min < 2^31`, with the interval `max - min + 1`, between 1 and `2^31`. -/
def Obligations.RangeCheckAcceptsExactly : Prop :=
  ∀ a b : Word, sval a = a.toInt ∧
    ∀ n : Nat, rangeCheck a b = some n ↔
      a.toInt ≤ b.toInt ∧ b.toInt - a.toInt < 2 ^ 31 ∧ (n : Int) = b.toInt - a.toInt + 1 ∧ 1 ≤ n ∧ n ≤ 2 ^ 31

/-- R181, D16: the rounding is to the nearest multiple of the unit in the 53rd place, and on a tie to the even one; below `2^53` there is
none. -/
def Obligations.ProductRoundsToNearestEven : Prop :=
  ∀ p : Nat, p < 2 ^ 63 →
    (p < 2 ^ 53 → roundProduct p = p) ∧
    ∀ s : Nat, 1 ≤ s → 2 ^ (52 + s) ≤ p → p < 2 ^ (53 + s) →
      ∃ m : Nat, roundProduct p = m * 2 ^ s ∧ 2 * p ≤ 2 * (m * 2 ^ s) + 2 ^ s ∧ 2 * (m * 2 ^ s) ≤ 2 * p + 2 ^ s ∧
        ((2 * p = 2 * (m * 2 ^ s) + 2 ^ s ∨ 2 * (m * 2 ^ s) = 2 * p + 2 ^ s) → m % 2 = 0)

/-- R182 (a) to (d): the biased map stays below the interval; below `2^53` it is multiply-and-shift; rounding can make it one larger; for
a power of two it is the high bits of the word. -/
def Obligations.BiasedMapProperties : Prop :=
  (∀ (w : Word) (n : Nat), 1 ≤ n → n ≤ 2 ^ 31 → biasedMap w n < n) ∧
  (∀ (w : Word) (n : Nat), w.toNat * n < 2 ^ 53 → biasedMap w n = w.toNat * n / 2 ^ 32) ∧
  (∀ (w : Word) (n : Nat), n ≤ 2 ^ 21 → biasedMap w n = w.toNat * n / 2 ^ 32) ∧
  (biasedMap 0x80000001 (2 ^ 31 - 1) = 1073741824 ∧ 0x80000001 * (2 ^ 31 - 1) / 2 ^ 32 = 1073741823) ∧
  (∀ (w : Word) (e : Nat), e ≤ 31 → biasedMap w (2 ^ e) = w.toNat / 2 ^ (32 - e))

/-- R188: the rejection limit is the largest multiple of the interval not exceeding `2^32`; it is `(2^32 div I) * I`, which is
`2^32 - (2^32 mod I)` and more than `2^32 - I`, and it is `2^32` exactly for the intervals that divide `2^32`, the powers of two. With the
rule's examples. -/
def Obligations.RejectionLimitIsTheLargestMultiple : Prop :=
  (∀ n : Nat, 1 ≤ n → n ≤ 2 ^ 31 →
    n ∣ rejectionLimitOf n ∧ rejectionLimitOf n ≤ 2 ^ 32 ∧ (∀ m, n ∣ m → m ≤ 2 ^ 32 → m ≤ rejectionLimitOf n) ∧
    rejectionLimitOf n = 2 ^ 32 / n * n ∧ rejectionLimitOf n = 2 ^ 32 - 2 ^ 32 % n ∧ 2 ^ 32 - n < rejectionLimitOf n ∧
    (rejectionLimitOf n = 2 ^ 32 ↔ n ∣ 2 ^ 32) ∧ (n ∣ 2 ^ 32 ↔ ∃ e : Nat, n = 2 ^ e)) ∧
  [1, 2, 4, 2 ^ 31, 3, 5, 6, 7, 11, 10, 201, 2 ^ 30 + 1, 3 * 2 ^ 29, 2 ^ 31 - 1, 1000000007].map rejectionLimitOf =
    [2 ^ 32, 2 ^ 32, 2 ^ 32, 2 ^ 32, 0xFFFFFFFF, 0xFFFFFFFF, 0xFFFFFFFC, 0xFFFFFFFC, 0xFFFFFFFC, 0xFFFFFFFA, 0xFFFFFF9C, 0xC0000003,
      0xC0000000, 0xFFFFFFFE, 0xEE6B281C]

/-- R189: the number of rejected words is `2^32 mod I`, fewer than `I` and fewer than half of all words, none for a power of two; and
every residue has the same number of accepted words. -/
def Obligations.AcceptedWordsAreUnbiased : Prop :=
  ∀ n : Nat, 1 ≤ n → n ≤ 2 ^ 31 →
    ((Finset.range (2 ^ 32)).filter fun w => rejectionLimitOf n ≤ w).card = 2 ^ 32 % n ∧ 2 ^ 32 % n < n ∧
    2 * (2 ^ 32 % n) < 2 ^ 32 ∧ (∀ e : Nat, n = 2 ^ e → 2 ^ 32 % n = 0) ∧
    ∀ r : Nat, r < n → ((Finset.range (rejectionLimitOf n)).filter fun w => w % n = r).card = 2 ^ 32 / n

/-! ### What each command does (40 to 45) -/

/-- R121: MT_INIT on a block that is not halted. Every field not named stays; that the rejection limit is among them is the model's
reading (entry 11). -/
def Obligations.MtInitResult : Prop :=
  ∀ (seed : Word) (s : State), s.halt = false →
    exec (.mtInit seed) s = .next (answered
      { s with mt := seedLoop s.cfg seed s.mt, index := 624, lastInterval := 0, mtSeeded := true } 0)

/-- R124: MT_INIT_ARRAY on a block that is not halted, with enough words queued. That the rejection limit stays is the model's reading
(entry 11). -/
def Obligations.MtInitArrayResult : Prop :=
  ∀ (length : Word) (n : Nat) (s : State), s.halt = false → length.toInt = (n : Int) → 1 ≤ n → n ≤ s.seedq.length →
    exec (.mtInitArray length) s = .next (answered
      { s with
        seedq := s.seedq.drop n, mt := arraySeedLoop s.cfg (s.seedq.take n) (seedLoop s.cfg s.cfg.mtArraySeed s.mt),
        index := 624, lastInterval := 0, mtSeeded := true } 0)

/-- R74, R124, R292: with too few words queued MT_INIT_ARRAY stays in execution, unanswered, and nothing else changes. That the queued words
stay queued meanwhile is the model's (entry 6). -/
def Obligations.MtInitArrayWaits : Prop :=
  ∀ (length : Word) (n : Nat) (s : State), s.halt = false → length.toInt = (n : Int) → s.seedq.length < n →
    exec (.mtInitArray length) s = .next { s with executing := some (.mtInitArray length) }

/-- R144: MT_NEXT_WORD on a seeded block that is not halted: one draw of the pseudocode, its word zero-extended. -/
def Obligations.MtNextWordResult : Prop :=
  ∀ s : State, s.halt = false → s.mtSeeded = true →
    exec .mtNextWord s = .next (answered (afterMtDraw s) (0#32 ++ mtDrawnWord s))

/-- R169: MT_NEXT_FLOAT: one draw, and the pattern whose value is the word over `2^32`. -/
def Obligations.MtNextFloatResult : Prop :=
  ∀ s : State, s.halt = false → s.mtSeeded = true →
    ∃ v : BitVec 64, exec .mtNextFloat s = .next (answered (afterMtDraw s) v) ∧
      v = floatConvert (mtDrawnWord s) ∧ floatValue v = ((mtDrawnWord s).toNat : ℚ) / 2 ^ 32

/-- R185, R182 (a): MT_BIASED_RANGE on an accepted range: one draw, also when `min = max`, and the result `min + BiasedMap(w, I)`, which
lies in the range. The cache stays. -/
def Obligations.MtBiasedRangeResult : Prop :=
  ∀ (min max : Word) (s : State), s.halt = false → s.mtSeeded = true → min.toInt ≤ max.toInt →
    max.toInt - min.toInt < 2 ^ 31 →
    ∃ v : Word, exec (.mtBiasedRange min max) s = .next (answered (afterMtDraw s) (0#32 ++ v)) ∧
      v.toInt = min.toInt + biasedMap (mtDrawnWord s) (max.toInt - min.toInt + 1).toNat ∧
      min.toInt ≤ v.toInt ∧ v.toInt ≤ max.toInt

/-- R190, R191 (a), R39: MT_EXACT_RANGE on an accepted range, when the first word below the rejection limit is the one after `k`
rejected words: `k + 1` words are consumed, the cache holds the interval and its limit, and the result is `min + (w mod I)`, which
lies in the range. The bound on `k` is the model's batch (entry 7). -/
def Obligations.MtExactRangeResult : Prop :=
  ∀ (min max : Word) (s : State) (k : Nat), s.halt = false → s.mtSeeded = true → s.CacheConsistent → min.toInt ≤ max.toInt →
    max.toInt - min.toInt < 2 ^ 31 → k < drawsPerStep →
    let n := (max.toInt - min.toInt + 1).toNat
    (∀ j < k, rejectionLimitOf n ≤ (mtDrawnWord (afterMtDraws j s)).toNat) →
    (mtDrawnWord (afterMtDraws k s)).toNat < rejectionLimitOf n →
    ∃ v : Word, exec (.mtExactRange min max) s = .next (answered
        { afterMtDraws (k + 1) s with lastInterval := BitVec.ofNat 32 n, rejectionLimit := BitVec.ofNat 33 (rejectionLimitOf n) }
        (0#32 ++ v)) ∧
      v.toInt = min.toInt + ((mtDrawnWord (afterMtDraws k s)).toNat % n : Nat) ∧ min.toInt ≤ v.toInt ∧ v.toInt ≤ max.toInt

/-- R190, R294 with entry 7: when every word of a batch is rejected, MT_EXACT_RANGE stays in execution, unanswered, with those words
consumed and the interval cached. -/
def Obligations.MtExactRangeGoesOn : Prop :=
  ∀ (min max : Word) (s : State), s.halt = false → s.mtSeeded = true → s.CacheConsistent → min.toInt ≤ max.toInt →
    max.toInt - min.toInt < 2 ^ 31 →
    let n := (max.toInt - min.toInt + 1).toNat
    (∀ j < drawsPerStep, rejectionLimitOf n ≤ (mtDrawnWord (afterMtDraws j s)).toNat) →
    exec (.mtExactRange min max) s = .next
      { afterMtDraws drawsPerStep s with
        lastInterval := BitVec.ofNat 32 n, rejectionLimit := BitVec.ofNat 33 (rejectionLimitOf n),
        executing := some (.mtExactRange min max) }

/-- R190, R294 with entry 7: the size of a batch shows in nothing: a longer batch is a shorter one gone on with. -/
def Obligations.RejectionBatchesJoin : Prop :=
  ∀ (n m : Nat) (s : State),
    drawBelowLimit (n + m) s =
      match drawBelowLimit n s with
      | (some w, t) => (some w, t)
      | (none, t) => drawBelowLimit m t

/-- R211: MG_INIT on a block that is not halted and has legal parameters: five steps of the recurrence, the first before the first
store, then the warm-up draws. -/
def Obligations.MgInitResult : Prop :=
  ∀ (seed : Word) (s : State), s.halt = false → s.cfg.wf = true →
    let f := fun w : Word => w * s.cfg.mgSeedMul + s.cfg.mgSeedAdd
    exec (.mgInit seed) s = .next (answered
      { afterMgDraws s.cfg.mgWarmup
          { s with hist := #v[f seed, f (f seed), f (f (f seed)), f (f (f (f seed))), f (f (f (f (f seed))))] } with
        mgSeeded := true } 0)

/-- R212: MG_NEXT_WORD on a seeded block that is not halted and has legal parameters. -/
def Obligations.MgNextWordResult : Prop :=
  ∀ s : State, s.halt = false → s.mgSeeded = true → s.cfg.wf = true →
    exec .mgNextWord s = .next (answered (afterMgDraw s) (0#32 ++ mgDrawnWord s))

/-- R214: MG_NEXT_FLOAT: one draw, and the pattern whose value is the word over `2^32`. -/
def Obligations.MgNextFloatResult : Prop :=
  ∀ s : State, s.halt = false → s.mgSeeded = true → s.cfg.wf = true →
    ∃ v : BitVec 64, exec .mgNextFloat s = .next (answered (afterMgDraw s) v) ∧
      v = floatConvert (mgDrawnWord s) ∧ floatValue v = ((mgDrawnWord s).toNat : ℚ) / 2 ^ 32

/-- R215: MG_BIASED_RANGE on an accepted range: one draw, and the result `min + BiasedMap(w, I)`, which lies in the range. -/
def Obligations.MgBiasedRangeResult : Prop :=
  ∀ (min max : Word) (s : State), s.halt = false → s.mgSeeded = true → s.cfg.wf = true → min.toInt ≤ max.toInt →
    max.toInt - min.toInt < 2 ^ 31 →
    ∃ v : Word, exec (.mgBiasedRange min max) s = .next (answered (afterMgDraw s) (0#32 ++ v)) ∧
      v.toInt = min.toInt + biasedMap (mgDrawnWord s) (max.toInt - min.toInt + 1).toNat ∧
      min.toInt ≤ v.toInt ∧ v.toInt ≤ max.toInt

/-- R52, R230, R244: STAT answers in every state, halted or not, with the status register field by field, and changes nothing; a second
STAT gives the same value (20_memory.md R77). -/
def Obligations.StatShowsTheStatusRegister : Prop :=
  ∀ s : State, ∃ sr : Word,
    exec .stat s = .next (answered s (0#32 ++ sr)) ∧
    exec .stat (answered s (0#32 ++ sr)) = .next (answered (answered s (0#32 ++ sr)) (0#32 ++ sr)) ∧
    sr.getLsbD 0 = s.mtSeeded ∧ sr.getLsbD 1 = s.mgSeeded ∧ sr.getLsbD 2 = s.halt ∧ sr.extractLsb' 3 3 = s.faultCode ∧
    sr.extractLsb' 6 2 = (if s.cfg.floatMode = .leIeee then 0 else 1) ∧ sr.extractLsb' 8 24 = 0

/-! ### Faults and the halt (60_exceptions.md) -/

/-- R246, R242, R243: a draw, float or range command of a unit that is not seeded faults with `UNSEEDED`, whatever its operands, and the
other unit's flag is not looked at. The MG commands are those of a block with legal parameters (R7, entry 9). -/
def Obligations.UnseededUnitFaults : Prop :=
  ∀ (i : Instr) (s : State), s.halt = false →
    (mtDrawing i = true → s.mtSeeded = false → exec i s = .next (faultEntry s 2)) ∧
    (mgDrawing i = true → s.mgSeeded = false → s.cfg.wf = true → exec i s = .next (faultEntry s 2))

/-- R180, R124, R242, R247: malformed operands fault before any draw and before any seed word is popped: a range command of a seeded
unit with `max < min` or `max - min >= 2^31` with `PRECOND_RANGE`, and MT_INIT_ARRAY with a length below 1 with
`PRECOND_LENGTH`. -/
def Obligations.MalformedOperandsFault : Prop :=
  ∀ (min max : Word) (s : State), s.halt = false →
    ((max.toInt < min.toInt ∨ max.toInt - min.toInt ≥ 2 ^ 31) →
      (s.mtSeeded = true → exec (.mtBiasedRange min max) s = .next (faultEntry s 3) ∧
        exec (.mtExactRange min max) s = .next (faultEntry s 3)) ∧
      (s.mgSeeded = true → s.cfg.wf = true → exec (.mgBiasedRange min max) s = .next (faultEntry s 3))) ∧
    ∀ length : Word, length.toInt < 1 → exec (.mtInitArray length) s = .next (faultEntry s 4)

/-- R244: while halted every command but STAT is refused with `HALTED` and no state changes, a presented word with a reserved opcode
too; STAT executes normally; and the host may still append seed words, which no command then consumes. -/
def Obligations.HaltedBlockRefuses : Prop :=
  ∀ s : State, s.halt = true →
    (∀ i : Instr, i ≠ .stat → (mgCommand i = true → s.cfg.wf = true) →
      exec i s = .next { s with responses := s.responses ++ [1#1 ++ 7#3 ++ 0#64], executing := none }) ∧
    (∀ (w : CommandWord) (rest : List HostInput), s.executing = none → s.inputs = .command w :: rest →
      commandOp w ∉ [0x00, 0x01, 0x02, 0x03, 0x04, 0x05, 0x10, 0x12, 0x13, 0x14, 0x20] →
      step s = .next { s with inputs := rest, responses := s.responses ++ [1#1 ++ 7#3 ++ 0#64], executing := none }) ∧
    exec .stat s = .next (answered s (0#32 ++ statusRegister s)) ∧
    ∀ (w : Word) (rest : List HostInput), s.executing = none → s.inputs = .seedWord w :: rest →
      step s = .next { s with inputs := rest, seedq := s.seedq ++ [w] }

/-- R120, R240, R242: faults are precise. A command after which a block that was not halted is halted has changed nothing but the
latch, the code and the response, whose code is the latched one, 2 to 4. -/
def Obligations.FaultsArePrecise : Prop :=
  ∀ (i : Instr) (s t : State), s.halt = false → exec i s = .next t → t.halt = true →
    ∃ c : BitVec 3, c ∈ [2, 3, 4] ∧ t = faultEntry s c

/-- R47, R48, R244, R248: a halted block leaves the halt by reset only. In a step that takes no reset the latch, its code, both units and
the parameters stay; in one that does the latch and the code are cleared, and both units are unseeded. -/
def Obligations.OnlyResetLeavesTheHalt : Prop :=
  ∀ s t : State, s.halt = true → step s = .next t →
    (s.inputs.head? ≠ some .reset →
      t.halt = true ∧ t.faultCode = s.faultCode ∧ SameMt s t ∧ SameMg s t ∧ t.cfg = s.cfg) ∧
    (s.inputs.head? = some .reset → t.halt = false ∧ t.faultCode = 0 ∧ t.mtSeeded = false ∧ t.mgSeeded = false)

/-! ### Whole-machine rules -/

/-- R34, R38, R39, R48, R96, R244: the invariant holds after reset, with any parameters and any host. That the rejection limit is
legal there is the model's reset value (entry 2). -/
def Obligations.InvariantAfterReset : Prop :=
  ∀ (c : Config) (inputs : List HostInput), (State.boot c inputs).Inv

/-- R34, R38, R39, R48, R96, R244: every step keeps the invariant: the cursor in 0..624, the rejection cache consistent and the limit
legal, the fault code 0 exactly while not halted, no command in execution while halted, and every response of a legal form. R60 leaves
the limit unspecified after reset: that a step which takes a reset leaves a legal one is the model's reset value (entry 2). -/
def Obligations.EveryStepKeepsTheInvariant : Prop :=
  ∀ s t : State, s.Inv → step s = .next t → t.Inv

/-- R34: after reset and after a seeding the cursor is 624; under the invariant the draw's test `index >= 624` is `index = 624`; a draw
leaves the cursor in 1..624; and no command takes it out of 0..624. -/
def Obligations.CursorStaysInRange : Prop :=
  (∀ (c : Config) (inputs : List HostInput), (State.boot c inputs).index = 624) ∧
  (∀ (s t : State) (seed : Word), s.halt = false → exec (.mtInit seed) s = .next t → t.index = 624) ∧
  (∀ (s t : State) (length : Word), exec (.mtInitArray length) s = .next t → t.halt = false → t.executing = none → t.index = 624) ∧
  (∀ s : State, s.IndexInRange → (624 ≤ s.index.toNat ↔ s.index = 624)) ∧
  (∀ s : State, (afterMtDraw s).IndexInRange ∧ 1 ≤ (afterMtDraw s).index.toNat) ∧
  ∀ (i : Instr) (s t : State), s.IndexInRange → exec i s = .next t → t.IndexInRange

/-- R282, R6: no step changes the parameters. -/
def Obligations.ParametersNeverChange : Prop :=
  ∀ s t : State, step s = .next t → t.cfg = s.cfg

/-- R46: only the seeding commands set a seeded flag, and no command clears one. -/
def Obligations.SeededFlagsOnlySetBySeeding : Prop :=
  ∀ (i : Instr) (s t : State), exec i s = .next t →
    (s.mtSeeded = true → t.mtSeeded = true) ∧ (s.mgSeeded = true → t.mgSeeded = true) ∧
    (s.mtSeeded = false → t.mtSeeded = true → (∃ seed, i = .mtInit seed) ∨ ∃ length, i = .mtInitArray length) ∧
    (s.mgSeeded = false → t.mgSeeded = true → ∃ seed, i = .mgInit seed)

/-- R5, R231: a command changes no unit but its own, only MT_INIT_ARRAY takes seed words, and STAT changes neither unit. -/
def Obligations.CommandsKeepToTheirUnit : Prop :=
  ∀ (i : Instr) (s t : State), exec i s = .next t →
    (mtCommand i = false → SameMt s t) ∧ (mgCommand i = false → SameMg s t) ∧
    ((∀ length, i ≠ .mtInitArray length) → t.seedq = s.seedq) ∧ t.cfg = s.cfg ∧ t.inputs = s.inputs

/-- R5: an MG command's response and what it leaves of its unit do not depend on the MT unit, on the queue or on earlier responses. -/
def Obligations.MgCommandsSeeOnlyTheMgUnit : Prop :=
  ∀ (i : Instr) (s s' t t' : State), mgCommand i = true → s.cfg = s'.cfg → s.halt = s'.halt → SameMg s s' →
    exec i s = .next t → exec i s' = .next t' →
    SameMg t t' ∧ t.halt = t'.halt ∧ ∃ r, t.responses = s.responses ++ [r] ∧ t'.responses = s'.responses ++ [r]

/-- R40, R191 (c), R285, R122 (c): an MT command's response and what it leaves of its unit do not depend on the MG unit, on earlier
responses, or on the rejection cache, as long as the cache is consistent: two blocks alike but for these answer alike and stay alike. -/
def Obligations.MtCommandsDoNotSeeTheCache : Prop :=
  ∀ (i : Instr) (s s' t t' : State), mtCommand i = true → MtAlike s s' → s.CacheConsistent → s'.CacheConsistent →
    exec i s = .next t → exec i s' = .next t' →
    MtAlike t t' ∧ t.executing = t'.executing ∧
      ∃ r, t.responses = s.responses ++ r ∧ t'.responses = s'.responses ++ r

/-- R122 (a), R285: MT_INIT forgets the past: two blocks with the same parameters and queue, whatever their units hold, are alike after
it, with consistent caches. -/
def Obligations.MtInitForgetsThePast : Prop :=
  ∀ (seed : Word) (s s' : State), s.cfg = s'.cfg → s.seedq = s'.seedq → s.halt = false → s'.halt = false →
    ∃ t t', exec (.mtInit seed) s = .next t ∧ exec (.mtInit seed) s' = .next t' ∧ MtAlike t t' ∧
      t.CacheConsistent ∧ t'.CacheConsistent ∧ t.lastInterval = t'.lastInterval ∧
      t.mt = seedLoop s.cfg seed s'.mt

/-- R81: an MT command and an MG command that both complete without a fault commute: in either order both units end the same, and
each command gets the same response. -/
def Obligations.UnitsCommute : Prop :=
  ∀ (i j : Instr) (s a b c d : State), mtCommand i = true → mgCommand j = true →
    exec i s = .next a → exec j a = .next b → exec j s = .next c → exec i c = .next d →
    b.halt = false → d.halt = false → a.executing = none →
    SameMt b d ∧ SameMg b d ∧ b.seedq = d.seedq ∧
      ∃ r q, b.responses = s.responses ++ [r, q] ∧ d.responses = s.responses ++ [q, r]

/-- R296 with entry 22: with no command still to come, the run has ended after executing a command exactly when its response has been
sent; and a run that has ended stays ended until a reset, whatever seed words follow, with no further response and the halt latch,
which says whether it ended cleanly, as it was. -/
def Obligations.RunEndsWithTheLastResponse : Prop :=
  ∀ s t : State,
    (∀ i : Instr, commandsAhead s.inputs = [] → exec i s = .next t →
      (t.runEnded ↔ ∃ r, t.responses = s.responses ++ [r])) ∧
    (s.runEnded → s.inputs.head? ≠ some .reset → step s = .next t →
      t.runEnded ∧ t.responses = s.responses ∧ t.halt = s.halt ∧ (s.endedCleanly ↔ t.endedCleanly))
end

