-- ==== Sys2Proof/Laws/State.lean ====
section
/-! SUPPORT. One lemma per field for every update of the state: what the field holds after it. -/

namespace Sys2Proof.Machine

/-! ### Sending a response -/

@[simp] theorem respond_cfg (s : State) (r : ResponseWord) : (s.respond r).cfg = s.cfg := rfl
@[simp] theorem respond_mt (s : State) (r : ResponseWord) : (s.respond r).mt = s.mt := rfl
@[simp] theorem respond_index (s : State) (r : ResponseWord) : (s.respond r).index = s.index := rfl
@[simp] theorem respond_lastInterval (s : State) (r : ResponseWord) : (s.respond r).lastInterval = s.lastInterval := rfl
@[simp] theorem respond_rejectionLimit (s : State) (r : ResponseWord) : (s.respond r).rejectionLimit = s.rejectionLimit := rfl
@[simp] theorem respond_mtSeeded (s : State) (r : ResponseWord) : (s.respond r).mtSeeded = s.mtSeeded := rfl
@[simp] theorem respond_hist (s : State) (r : ResponseWord) : (s.respond r).hist = s.hist := rfl
@[simp] theorem respond_mgSeeded (s : State) (r : ResponseWord) : (s.respond r).mgSeeded = s.mgSeeded := rfl
@[simp] theorem respond_halt (s : State) (r : ResponseWord) : (s.respond r).halt = s.halt := rfl
@[simp] theorem respond_faultCode (s : State) (r : ResponseWord) : (s.respond r).faultCode = s.faultCode := rfl
@[simp] theorem respond_seedq (s : State) (r : ResponseWord) : (s.respond r).seedq = s.seedq := rfl
@[simp] theorem respond_responses (s : State) (r : ResponseWord) : (s.respond r).responses = s.responses ++ [r] := rfl
@[simp] theorem respond_executing (s : State) (r : ResponseWord) : (s.respond r).executing = none := rfl
@[simp] theorem respond_inputs (s : State) (r : ResponseWord) : (s.respond r).inputs = s.inputs := rfl

/-! ### Taking a fault -/

@[simp] theorem raiseFault_cfg (s : State) (c : FaultCode) : (s.raiseFault c).cfg = s.cfg := rfl
@[simp] theorem raiseFault_mt (s : State) (c : FaultCode) : (s.raiseFault c).mt = s.mt := rfl
@[simp] theorem raiseFault_index (s : State) (c : FaultCode) : (s.raiseFault c).index = s.index := rfl
@[simp] theorem raiseFault_lastInterval (s : State) (c : FaultCode) : (s.raiseFault c).lastInterval = s.lastInterval := rfl
@[simp] theorem raiseFault_rejectionLimit (s : State) (c : FaultCode) : (s.raiseFault c).rejectionLimit = s.rejectionLimit := rfl
@[simp] theorem raiseFault_mtSeeded (s : State) (c : FaultCode) : (s.raiseFault c).mtSeeded = s.mtSeeded := rfl
@[simp] theorem raiseFault_hist (s : State) (c : FaultCode) : (s.raiseFault c).hist = s.hist := rfl
@[simp] theorem raiseFault_mgSeeded (s : State) (c : FaultCode) : (s.raiseFault c).mgSeeded = s.mgSeeded := rfl
@[simp] theorem raiseFault_halt (s : State) (c : FaultCode) : (s.raiseFault c).halt = true := rfl
@[simp] theorem raiseFault_faultCode (s : State) (c : FaultCode) : (s.raiseFault c).faultCode = c.bits := rfl
@[simp] theorem raiseFault_seedq (s : State) (c : FaultCode) : (s.raiseFault c).seedq = s.seedq := rfl
@[simp] theorem raiseFault_responses (s : State) (c : FaultCode) : (s.raiseFault c).responses = s.responses ++ [errResponse c.bits] := rfl
@[simp] theorem raiseFault_executing (s : State) (c : FaultCode) : (s.raiseFault c).executing = none := rfl
@[simp] theorem raiseFault_inputs (s : State) (c : FaultCode) : (s.raiseFault c).inputs = s.inputs := rfl

/-! ### Refusing while halted -/

@[simp] theorem refuseHalted_cfg (s : State) : s.refuseHalted.cfg = s.cfg := rfl
@[simp] theorem refuseHalted_mt (s : State) : s.refuseHalted.mt = s.mt := rfl
@[simp] theorem refuseHalted_index (s : State) : s.refuseHalted.index = s.index := rfl
@[simp] theorem refuseHalted_lastInterval (s : State) : s.refuseHalted.lastInterval = s.lastInterval := rfl
@[simp] theorem refuseHalted_rejectionLimit (s : State) : s.refuseHalted.rejectionLimit = s.rejectionLimit := rfl
@[simp] theorem refuseHalted_mtSeeded (s : State) : s.refuseHalted.mtSeeded = s.mtSeeded := rfl
@[simp] theorem refuseHalted_hist (s : State) : s.refuseHalted.hist = s.hist := rfl
@[simp] theorem refuseHalted_mgSeeded (s : State) : s.refuseHalted.mgSeeded = s.mgSeeded := rfl
@[simp] theorem refuseHalted_halt (s : State) : s.refuseHalted.halt = s.halt := rfl
@[simp] theorem refuseHalted_faultCode (s : State) : s.refuseHalted.faultCode = s.faultCode := rfl
@[simp] theorem refuseHalted_seedq (s : State) : s.refuseHalted.seedq = s.seedq := rfl
@[simp] theorem refuseHalted_responses (s : State) : s.refuseHalted.responses = s.responses ++ [errResponse haltedCode] := rfl
@[simp] theorem refuseHalted_executing (s : State) : s.refuseHalted.executing = none := rfl
@[simp] theorem refuseHalted_inputs (s : State) : s.refuseHalted.inputs = s.inputs := rfl

/-! ### The seed channel -/

@[simp] theorem appendSeed_cfg (s : State) (w : Word) : (s.appendSeed w).cfg = s.cfg := rfl
@[simp] theorem appendSeed_mt (s : State) (w : Word) : (s.appendSeed w).mt = s.mt := rfl
@[simp] theorem appendSeed_index (s : State) (w : Word) : (s.appendSeed w).index = s.index := rfl
@[simp] theorem appendSeed_lastInterval (s : State) (w : Word) : (s.appendSeed w).lastInterval = s.lastInterval := rfl
@[simp] theorem appendSeed_rejectionLimit (s : State) (w : Word) : (s.appendSeed w).rejectionLimit = s.rejectionLimit := rfl
@[simp] theorem appendSeed_mtSeeded (s : State) (w : Word) : (s.appendSeed w).mtSeeded = s.mtSeeded := rfl
@[simp] theorem appendSeed_hist (s : State) (w : Word) : (s.appendSeed w).hist = s.hist := rfl
@[simp] theorem appendSeed_mgSeeded (s : State) (w : Word) : (s.appendSeed w).mgSeeded = s.mgSeeded := rfl
@[simp] theorem appendSeed_halt (s : State) (w : Word) : (s.appendSeed w).halt = s.halt := rfl
@[simp] theorem appendSeed_faultCode (s : State) (w : Word) : (s.appendSeed w).faultCode = s.faultCode := rfl
@[simp] theorem appendSeed_seedq (s : State) (w : Word) : (s.appendSeed w).seedq = s.seedq ++ [w] := rfl
@[simp] theorem appendSeed_responses (s : State) (w : Word) : (s.appendSeed w).responses = s.responses := rfl
@[simp] theorem appendSeed_executing (s : State) (w : Word) : (s.appendSeed w).executing = s.executing := rfl
@[simp] theorem appendSeed_inputs (s : State) (w : Word) : (s.appendSeed w).inputs = s.inputs := rfl

/-! ### Reset -/

@[simp] theorem hostReset_cfg (s : State) : s.hostReset.cfg = s.cfg := rfl
@[simp] theorem hostReset_mt (s : State) : s.hostReset.mt = State.reset.mt := rfl
@[simp] theorem hostReset_index (s : State) : s.hostReset.index = State.reset.index := rfl
@[simp] theorem hostReset_lastInterval (s : State) : s.hostReset.lastInterval = State.reset.lastInterval := rfl
@[simp] theorem hostReset_rejectionLimit (s : State) : s.hostReset.rejectionLimit = State.reset.rejectionLimit := rfl
@[simp] theorem hostReset_mtSeeded (s : State) : s.hostReset.mtSeeded = State.reset.mtSeeded := rfl
@[simp] theorem hostReset_hist (s : State) : s.hostReset.hist = State.reset.hist := rfl
@[simp] theorem hostReset_mgSeeded (s : State) : s.hostReset.mgSeeded = State.reset.mgSeeded := rfl
@[simp] theorem hostReset_halt (s : State) : s.hostReset.halt = State.reset.halt := rfl
@[simp] theorem hostReset_faultCode (s : State) : s.hostReset.faultCode = State.reset.faultCode := rfl
@[simp] theorem hostReset_seedq (s : State) : s.hostReset.seedq = State.reset.seedq := rfl
@[simp] theorem hostReset_responses (s : State) : s.hostReset.responses = State.reset.responses := rfl
@[simp] theorem hostReset_executing (s : State) : s.hostReset.executing = State.reset.executing := rfl
@[simp] theorem hostReset_inputs (s : State) : s.hostReset.inputs = s.inputs := rfl

/-! ### Presenting a command -/

@[simp] theorem presentNext_cfg (s : State) (w : CommandWord) : (s.presentNext w).cfg = s.cfg := rfl
@[simp] theorem presentNext_mt (s : State) (w : CommandWord) : (s.presentNext w).mt = s.mt := rfl
@[simp] theorem presentNext_index (s : State) (w : CommandWord) : (s.presentNext w).index = s.index := rfl
@[simp] theorem presentNext_lastInterval (s : State) (w : CommandWord) : (s.presentNext w).lastInterval = s.lastInterval := rfl
@[simp] theorem presentNext_rejectionLimit (s : State) (w : CommandWord) : (s.presentNext w).rejectionLimit = s.rejectionLimit := rfl
@[simp] theorem presentNext_mtSeeded (s : State) (w : CommandWord) : (s.presentNext w).mtSeeded = s.mtSeeded := rfl
@[simp] theorem presentNext_hist (s : State) (w : CommandWord) : (s.presentNext w).hist = s.hist := rfl
@[simp] theorem presentNext_mgSeeded (s : State) (w : CommandWord) : (s.presentNext w).mgSeeded = s.mgSeeded := rfl
@[simp] theorem presentNext_halt (s : State) (w : CommandWord) : (s.presentNext w).halt = s.halt := rfl
@[simp] theorem presentNext_faultCode (s : State) (w : CommandWord) : (s.presentNext w).faultCode = s.faultCode := rfl
@[simp] theorem presentNext_seedq (s : State) (w : CommandWord) : (s.presentNext w).seedq = s.seedq := rfl
@[simp] theorem presentNext_responses (s : State) (w : CommandWord) : (s.presentNext w).responses = s.responses := rfl
@[simp] theorem presentNext_executing (s : State) (w : CommandWord) : (s.presentNext w).executing = none := rfl
@[simp] theorem presentNext_inputs (s : State) (w : CommandWord) : (s.presentNext w).inputs = .command w :: s.inputs := rfl

/-! ### MT_INIT -/

@[simp] theorem mtInit_cfg (s : State) (seed : Word) : (s.mtInit seed).cfg = s.cfg := rfl
@[simp] theorem mtInit_mt (s : State) (seed : Word) : (s.mtInit seed).mt = seedBlock s.cfg seed := rfl
@[simp] theorem mtInit_index (s : State) (seed : Word) : (s.mtInit seed).index = 624 := rfl
@[simp] theorem mtInit_lastInterval (s : State) (seed : Word) : (s.mtInit seed).lastInterval = 0 := rfl
@[simp] theorem mtInit_rejectionLimit (s : State) (seed : Word) : (s.mtInit seed).rejectionLimit = s.rejectionLimit := rfl
@[simp] theorem mtInit_mtSeeded (s : State) (seed : Word) : (s.mtInit seed).mtSeeded = true := rfl
@[simp] theorem mtInit_hist (s : State) (seed : Word) : (s.mtInit seed).hist = s.hist := rfl
@[simp] theorem mtInit_mgSeeded (s : State) (seed : Word) : (s.mtInit seed).mgSeeded = s.mgSeeded := rfl
@[simp] theorem mtInit_halt (s : State) (seed : Word) : (s.mtInit seed).halt = s.halt := rfl
@[simp] theorem mtInit_faultCode (s : State) (seed : Word) : (s.mtInit seed).faultCode = s.faultCode := rfl
@[simp] theorem mtInit_seedq (s : State) (seed : Word) : (s.mtInit seed).seedq = s.seedq := rfl
@[simp] theorem mtInit_responses (s : State) (seed : Word) : (s.mtInit seed).responses = s.responses := rfl
@[simp] theorem mtInit_executing (s : State) (seed : Word) : (s.mtInit seed).executing = s.executing := rfl
@[simp] theorem mtInit_inputs (s : State) (seed : Word) : (s.mtInit seed).inputs = s.inputs := rfl

/-! ### MT_INIT_ARRAY -/

@[simp] theorem mtInitArray_cfg (s : State) (seeds : List Word) : (s.mtInitArray seeds).cfg = s.cfg := rfl
@[simp] theorem mtInitArray_mt (s : State) (seeds : List Word) : (s.mtInitArray seeds).mt = arraySeedBlock s.cfg seeds := rfl
@[simp] theorem mtInitArray_index (s : State) (seeds : List Word) : (s.mtInitArray seeds).index = 624 := rfl
@[simp] theorem mtInitArray_lastInterval (s : State) (seeds : List Word) : (s.mtInitArray seeds).lastInterval = 0 := rfl
@[simp] theorem mtInitArray_rejectionLimit (s : State) (seeds : List Word) : (s.mtInitArray seeds).rejectionLimit = s.rejectionLimit := rfl
@[simp] theorem mtInitArray_mtSeeded (s : State) (seeds : List Word) : (s.mtInitArray seeds).mtSeeded = true := rfl
@[simp] theorem mtInitArray_hist (s : State) (seeds : List Word) : (s.mtInitArray seeds).hist = s.hist := rfl
@[simp] theorem mtInitArray_mgSeeded (s : State) (seeds : List Word) : (s.mtInitArray seeds).mgSeeded = s.mgSeeded := rfl
@[simp] theorem mtInitArray_halt (s : State) (seeds : List Word) : (s.mtInitArray seeds).halt = s.halt := rfl
@[simp] theorem mtInitArray_faultCode (s : State) (seeds : List Word) : (s.mtInitArray seeds).faultCode = s.faultCode := rfl
@[simp] theorem mtInitArray_seedq (s : State) (seeds : List Word) : (s.mtInitArray seeds).seedq = s.seedq := rfl
@[simp] theorem mtInitArray_responses (s : State) (seeds : List Word) : (s.mtInitArray seeds).responses = s.responses := rfl
@[simp] theorem mtInitArray_executing (s : State) (seeds : List Word) : (s.mtInitArray seeds).executing = s.executing := rfl
@[simp] theorem mtInitArray_inputs (s : State) (seeds : List Word) : (s.mtInitArray seeds).inputs = s.inputs := rfl

/-! ### A regeneration that is due -/

@[simp] theorem mtReady_cfg (s : State) : s.mtReady.cfg = s.cfg := by
  unfold State.mtReady; split <;> rfl
@[simp] theorem mtReady_lastInterval (s : State) : s.mtReady.lastInterval = s.lastInterval := by
  unfold State.mtReady; split <;> rfl
@[simp] theorem mtReady_rejectionLimit (s : State) : s.mtReady.rejectionLimit = s.rejectionLimit := by
  unfold State.mtReady; split <;> rfl
@[simp] theorem mtReady_mtSeeded (s : State) : s.mtReady.mtSeeded = s.mtSeeded := by
  unfold State.mtReady; split <;> rfl
@[simp] theorem mtReady_hist (s : State) : s.mtReady.hist = s.hist := by
  unfold State.mtReady; split <;> rfl
@[simp] theorem mtReady_mgSeeded (s : State) : s.mtReady.mgSeeded = s.mgSeeded := by
  unfold State.mtReady; split <;> rfl
@[simp] theorem mtReady_halt (s : State) : s.mtReady.halt = s.halt := by
  unfold State.mtReady; split <;> rfl
@[simp] theorem mtReady_faultCode (s : State) : s.mtReady.faultCode = s.faultCode := by
  unfold State.mtReady; split <;> rfl
@[simp] theorem mtReady_seedq (s : State) : s.mtReady.seedq = s.seedq := by
  unfold State.mtReady; split <;> rfl
@[simp] theorem mtReady_responses (s : State) : s.mtReady.responses = s.responses := by
  unfold State.mtReady; split <;> rfl
@[simp] theorem mtReady_executing (s : State) : s.mtReady.executing = s.executing := by
  unfold State.mtReady; split <;> rfl
@[simp] theorem mtReady_inputs (s : State) : s.mtReady.inputs = s.inputs := by
  unfold State.mtReady; split <;> rfl

/-! ### An MT draw -/

@[simp] theorem mtDraw_cfg (s : State) : (mtDraw s).2.cfg = s.cfg := by
  simp [mtDraw]
@[simp] theorem mtDraw_lastInterval (s : State) : (mtDraw s).2.lastInterval = s.lastInterval := by
  simp [mtDraw]
@[simp] theorem mtDraw_rejectionLimit (s : State) : (mtDraw s).2.rejectionLimit = s.rejectionLimit := by
  simp [mtDraw]
@[simp] theorem mtDraw_mtSeeded (s : State) : (mtDraw s).2.mtSeeded = s.mtSeeded := by
  simp [mtDraw]
@[simp] theorem mtDraw_hist (s : State) : (mtDraw s).2.hist = s.hist := by
  simp [mtDraw]
@[simp] theorem mtDraw_mgSeeded (s : State) : (mtDraw s).2.mgSeeded = s.mgSeeded := by
  simp [mtDraw]
@[simp] theorem mtDraw_halt (s : State) : (mtDraw s).2.halt = s.halt := by
  simp [mtDraw]
@[simp] theorem mtDraw_faultCode (s : State) : (mtDraw s).2.faultCode = s.faultCode := by
  simp [mtDraw]
@[simp] theorem mtDraw_seedq (s : State) : (mtDraw s).2.seedq = s.seedq := by
  simp [mtDraw]
@[simp] theorem mtDraw_responses (s : State) : (mtDraw s).2.responses = s.responses := by
  simp [mtDraw]
@[simp] theorem mtDraw_executing (s : State) : (mtDraw s).2.executing = s.executing := by
  simp [mtDraw]
@[simp] theorem mtDraw_inputs (s : State) : (mtDraw s).2.inputs = s.inputs := by
  simp [mtDraw]

@[simp] theorem mtDraw_mt (s : State) : (mtDraw s).2.mt = s.mtReady.mt := rfl
@[simp] theorem mtDraw_index (s : State) : (mtDraw s).2.index = s.mtReady.index + 1 := rfl

/-! ### The rejection cache -/

@[simp] theorem cacheInterval_cfg (s : State) (n : Nat) : (s.cacheInterval n).cfg = s.cfg := by
  unfold State.cacheInterval; split <;> rfl
@[simp] theorem cacheInterval_mt (s : State) (n : Nat) : (s.cacheInterval n).mt = s.mt := by
  unfold State.cacheInterval; split <;> rfl
@[simp] theorem cacheInterval_index (s : State) (n : Nat) : (s.cacheInterval n).index = s.index := by
  unfold State.cacheInterval; split <;> rfl
@[simp] theorem cacheInterval_mtSeeded (s : State) (n : Nat) : (s.cacheInterval n).mtSeeded = s.mtSeeded := by
  unfold State.cacheInterval; split <;> rfl
@[simp] theorem cacheInterval_hist (s : State) (n : Nat) : (s.cacheInterval n).hist = s.hist := by
  unfold State.cacheInterval; split <;> rfl
@[simp] theorem cacheInterval_mgSeeded (s : State) (n : Nat) : (s.cacheInterval n).mgSeeded = s.mgSeeded := by
  unfold State.cacheInterval; split <;> rfl
@[simp] theorem cacheInterval_halt (s : State) (n : Nat) : (s.cacheInterval n).halt = s.halt := by
  unfold State.cacheInterval; split <;> rfl
@[simp] theorem cacheInterval_faultCode (s : State) (n : Nat) : (s.cacheInterval n).faultCode = s.faultCode := by
  unfold State.cacheInterval; split <;> rfl
@[simp] theorem cacheInterval_seedq (s : State) (n : Nat) : (s.cacheInterval n).seedq = s.seedq := by
  unfold State.cacheInterval; split <;> rfl
@[simp] theorem cacheInterval_responses (s : State) (n : Nat) : (s.cacheInterval n).responses = s.responses := by
  unfold State.cacheInterval; split <;> rfl
@[simp] theorem cacheInterval_executing (s : State) (n : Nat) : (s.cacheInterval n).executing = s.executing := by
  unfold State.cacheInterval; split <;> rfl
@[simp] theorem cacheInterval_inputs (s : State) (n : Nat) : (s.cacheInterval n).inputs = s.inputs := by
  unfold State.cacheInterval; split <;> rfl

/-! ### An MG draw -/

@[simp] theorem mgDraw_cfg (s : State) : (mgDraw s).2.cfg = s.cfg := rfl
@[simp] theorem mgDraw_mt (s : State) : (mgDraw s).2.mt = s.mt := rfl
@[simp] theorem mgDraw_index (s : State) : (mgDraw s).2.index = s.index := rfl
@[simp] theorem mgDraw_lastInterval (s : State) : (mgDraw s).2.lastInterval = s.lastInterval := rfl
@[simp] theorem mgDraw_rejectionLimit (s : State) : (mgDraw s).2.rejectionLimit = s.rejectionLimit := rfl
@[simp] theorem mgDraw_mtSeeded (s : State) : (mgDraw s).2.mtSeeded = s.mtSeeded := rfl
@[simp] theorem mgDraw_hist (s : State) : (mgDraw s).2.hist = motherNext s.cfg s.hist := rfl
@[simp] theorem mgDraw_mgSeeded (s : State) : (mgDraw s).2.mgSeeded = s.mgSeeded := rfl
@[simp] theorem mgDraw_halt (s : State) : (mgDraw s).2.halt = s.halt := rfl
@[simp] theorem mgDraw_faultCode (s : State) : (mgDraw s).2.faultCode = s.faultCode := rfl
@[simp] theorem mgDraw_seedq (s : State) : (mgDraw s).2.seedq = s.seedq := rfl
@[simp] theorem mgDraw_responses (s : State) : (mgDraw s).2.responses = s.responses := rfl
@[simp] theorem mgDraw_executing (s : State) : (mgDraw s).2.executing = s.executing := rfl
@[simp] theorem mgDraw_inputs (s : State) : (mgDraw s).2.inputs = s.inputs := rfl

/-! ### Discarded MG draws -/

@[simp] theorem mgDiscard_cfg (n : Nat) (s : State) : (mgDiscard n s).cfg = s.cfg := by
  induction n generalizing s with
  | zero => rfl
  | succ n ih => simp [mgDiscard, ih]
@[simp] theorem mgDiscard_mt (n : Nat) (s : State) : (mgDiscard n s).mt = s.mt := by
  induction n generalizing s with
  | zero => rfl
  | succ n ih => simp [mgDiscard, ih]
@[simp] theorem mgDiscard_index (n : Nat) (s : State) : (mgDiscard n s).index = s.index := by
  induction n generalizing s with
  | zero => rfl
  | succ n ih => simp [mgDiscard, ih]
@[simp] theorem mgDiscard_lastInterval (n : Nat) (s : State) : (mgDiscard n s).lastInterval = s.lastInterval := by
  induction n generalizing s with
  | zero => rfl
  | succ n ih => simp [mgDiscard, ih]
@[simp] theorem mgDiscard_rejectionLimit (n : Nat) (s : State) : (mgDiscard n s).rejectionLimit = s.rejectionLimit := by
  induction n generalizing s with
  | zero => rfl
  | succ n ih => simp [mgDiscard, ih]
@[simp] theorem mgDiscard_mtSeeded (n : Nat) (s : State) : (mgDiscard n s).mtSeeded = s.mtSeeded := by
  induction n generalizing s with
  | zero => rfl
  | succ n ih => simp [mgDiscard, ih]
@[simp] theorem mgDiscard_mgSeeded (n : Nat) (s : State) : (mgDiscard n s).mgSeeded = s.mgSeeded := by
  induction n generalizing s with
  | zero => rfl
  | succ n ih => simp [mgDiscard, ih]
@[simp] theorem mgDiscard_halt (n : Nat) (s : State) : (mgDiscard n s).halt = s.halt := by
  induction n generalizing s with
  | zero => rfl
  | succ n ih => simp [mgDiscard, ih]
@[simp] theorem mgDiscard_faultCode (n : Nat) (s : State) : (mgDiscard n s).faultCode = s.faultCode := by
  induction n generalizing s with
  | zero => rfl
  | succ n ih => simp [mgDiscard, ih]
@[simp] theorem mgDiscard_seedq (n : Nat) (s : State) : (mgDiscard n s).seedq = s.seedq := by
  induction n generalizing s with
  | zero => rfl
  | succ n ih => simp [mgDiscard, ih]
@[simp] theorem mgDiscard_responses (n : Nat) (s : State) : (mgDiscard n s).responses = s.responses := by
  induction n generalizing s with
  | zero => rfl
  | succ n ih => simp [mgDiscard, ih]
@[simp] theorem mgDiscard_executing (n : Nat) (s : State) : (mgDiscard n s).executing = s.executing := by
  induction n generalizing s with
  | zero => rfl
  | succ n ih => simp [mgDiscard, ih]
@[simp] theorem mgDiscard_inputs (n : Nat) (s : State) : (mgDiscard n s).inputs = s.inputs := by
  induction n generalizing s with
  | zero => rfl
  | succ n ih => simp [mgDiscard, ih]

/-! ### MG_INIT -/

@[simp] theorem mgInit_cfg (s : State) (seed : Word) : (s.mgInit seed).cfg = s.cfg := by
  simp [State.mgInit]
@[simp] theorem mgInit_mt (s : State) (seed : Word) : (s.mgInit seed).mt = s.mt := by
  simp [State.mgInit]
@[simp] theorem mgInit_index (s : State) (seed : Word) : (s.mgInit seed).index = s.index := by
  simp [State.mgInit]
@[simp] theorem mgInit_lastInterval (s : State) (seed : Word) : (s.mgInit seed).lastInterval = s.lastInterval := by
  simp [State.mgInit]
@[simp] theorem mgInit_rejectionLimit (s : State) (seed : Word) : (s.mgInit seed).rejectionLimit = s.rejectionLimit := by
  simp [State.mgInit]
@[simp] theorem mgInit_mtSeeded (s : State) (seed : Word) : (s.mgInit seed).mtSeeded = s.mtSeeded := by
  simp [State.mgInit]
@[simp] theorem mgInit_mgSeeded (s : State) (seed : Word) : (s.mgInit seed).mgSeeded = true := rfl
@[simp] theorem mgInit_halt (s : State) (seed : Word) : (s.mgInit seed).halt = s.halt := by
  simp [State.mgInit]
@[simp] theorem mgInit_faultCode (s : State) (seed : Word) : (s.mgInit seed).faultCode = s.faultCode := by
  simp [State.mgInit]
@[simp] theorem mgInit_seedq (s : State) (seed : Word) : (s.mgInit seed).seedq = s.seedq := by
  simp [State.mgInit]
@[simp] theorem mgInit_responses (s : State) (seed : Word) : (s.mgInit seed).responses = s.responses := by
  simp [State.mgInit]
@[simp] theorem mgInit_executing (s : State) (seed : Word) : (s.mgInit seed).executing = s.executing := by
  simp [State.mgInit]
@[simp] theorem mgInit_inputs (s : State) (seed : Word) : (s.mgInit seed).inputs = s.inputs := by
  simp [State.mgInit]

/-! ### Draws of the rejection loop -/

@[simp] theorem drawBelowLimit_cfg (n : Nat) (s : State) : (drawBelowLimit n s).2.cfg = s.cfg := by
  induction n generalizing s with
  | zero => rfl
  | succ n ih => unfold drawBelowLimit; split <;> simp [ih]
@[simp] theorem drawBelowLimit_lastInterval (n : Nat) (s : State) : (drawBelowLimit n s).2.lastInterval = s.lastInterval := by
  induction n generalizing s with
  | zero => rfl
  | succ n ih => unfold drawBelowLimit; split <;> simp [ih]
@[simp] theorem drawBelowLimit_rejectionLimit (n : Nat) (s : State) : (drawBelowLimit n s).2.rejectionLimit = s.rejectionLimit := by
  induction n generalizing s with
  | zero => rfl
  | succ n ih => unfold drawBelowLimit; split <;> simp [ih]
@[simp] theorem drawBelowLimit_mtSeeded (n : Nat) (s : State) : (drawBelowLimit n s).2.mtSeeded = s.mtSeeded := by
  induction n generalizing s with
  | zero => rfl
  | succ n ih => unfold drawBelowLimit; split <;> simp [ih]
@[simp] theorem drawBelowLimit_hist (n : Nat) (s : State) : (drawBelowLimit n s).2.hist = s.hist := by
  induction n generalizing s with
  | zero => rfl
  | succ n ih => unfold drawBelowLimit; split <;> simp [ih]
@[simp] theorem drawBelowLimit_mgSeeded (n : Nat) (s : State) : (drawBelowLimit n s).2.mgSeeded = s.mgSeeded := by
  induction n generalizing s with
  | zero => rfl
  | succ n ih => unfold drawBelowLimit; split <;> simp [ih]
@[simp] theorem drawBelowLimit_halt (n : Nat) (s : State) : (drawBelowLimit n s).2.halt = s.halt := by
  induction n generalizing s with
  | zero => rfl
  | succ n ih => unfold drawBelowLimit; split <;> simp [ih]
@[simp] theorem drawBelowLimit_faultCode (n : Nat) (s : State) : (drawBelowLimit n s).2.faultCode = s.faultCode := by
  induction n generalizing s with
  | zero => rfl
  | succ n ih => unfold drawBelowLimit; split <;> simp [ih]
@[simp] theorem drawBelowLimit_seedq (n : Nat) (s : State) : (drawBelowLimit n s).2.seedq = s.seedq := by
  induction n generalizing s with
  | zero => rfl
  | succ n ih => unfold drawBelowLimit; split <;> simp [ih]
@[simp] theorem drawBelowLimit_responses (n : Nat) (s : State) : (drawBelowLimit n s).2.responses = s.responses := by
  induction n generalizing s with
  | zero => rfl
  | succ n ih => unfold drawBelowLimit; split <;> simp [ih]
@[simp] theorem drawBelowLimit_executing (n : Nat) (s : State) : (drawBelowLimit n s).2.executing = s.executing := by
  induction n generalizing s with
  | zero => rfl
  | succ n ih => unfold drawBelowLimit; split <;> simp [ih]
@[simp] theorem drawBelowLimit_inputs (n : Nat) (s : State) : (drawBelowLimit n s).2.inputs = s.inputs := by
  induction n generalizing s with
  | zero => rfl
  | succ n ih => unfold drawBelowLimit; split <;> simp [ih]

end Sys2Proof.Machine
end

