-- ==== Sys2Proof/Laws/Ops.lean ====
section
/-! SUPPORT. What the shared operations and the step can do, said once for each. -/

namespace Sys2Proof.Machine

/-! ### The preamble of a command -/

theorem runCommand_halted {s : State} (h : s.halt = true) (i : Instr) (r : CommandResult) :
    runCommand i s r = s.refuseHalted := by
  simp [runCommand, h]

theorem runCommand_completes {s : State} (h : s.halt = false) (i : Instr) (v : BitVec 64) (t : State) :
    runCommand i s (.completes v t) = t.respond (okResponse v) := by
  simp [runCommand, h]

theorem runCommand_waits {s : State} (h : s.halt = false) (i : Instr) (t : State) :
    runCommand i s (.waits t) = { t with executing := some i } := by
  simp [runCommand, h]

theorem runCommand_faults {s : State} (h : s.halt = false) (i : Instr) (c : FaultCode) :
    runCommand i s (.faults c) = s.raiseFault c := by
  simp [runCommand, h]

theorem ifSeeded_true (r : CommandResult) : ifSeeded true r = r := rfl

theorem ifSeeded_false (r : CommandResult) : ifSeeded false r = .faults .unseeded := rfl

theorem withInterval_some {min max : Word} {n : Nat} (h : rangeCheck min max = some n) (f : Nat → CommandResult) :
    withInterval min max f = f n := by
  simp [withInterval, h]

theorem withInterval_none {min max : Word} (h : rangeCheck min max = none) (f : Nat → CommandResult) :
    withInterval min max f = .faults .precondRange := by
  simp [withInterval, h]

/-- A seed length is handed on exactly when it is at least 1. -/
theorem lengthCheck_eq_some {a : Word} {n : Nat} : lengthCheck a = some n ↔ 1 ≤ sval a ∧ (sval a).toNat = n := by
  unfold lengthCheck
  split
  · simp; omega
  · simp; omega

/-- What an accepted range hands to the effect. -/
theorem rangeCheck_eq_some {a b : Word} {n : Nat} :
    rangeCheck a b = some n ↔ sval a ≤ sval b ∧ sval b - sval a < 2 ^ 31 ∧ (n : Int) = sval b - sval a + 1 := by
  unfold rangeCheck
  simp only
  split
  · simp; omega
  · split
    · simp; omega
    · simp; omega

/-! ### The result of each command, before the preamble and the answer -/

/-- The result of a command on a state that is not halted; for STAT, its answer. -/
def commandResult (i : Instr) (s : State) : CommandResult :=
  match i with
  | .mtInit seed => .completes noResult (s.mtInit seed)
  | .mtInitArray length =>
    match lengthCheck length with
    | none => .faults .precondLength
    | some n =>
      if s.seedq.length < n then .waits s
      else .completes noResult ({ s with seedq := s.seedq.drop n }.mtInitArray (s.seedq.take n))
  | .mtNextWord => ifSeeded s.mtSeeded (.completes (wordResult (mtDraw s).1) (mtDraw s).2)
  | .mtNextFloat => ifSeeded s.mtSeeded (.completes (floatConvert (mtDraw s).1) (mtDraw s).2)
  | .mtBiasedRange min max =>
    ifSeeded s.mtSeeded (withInterval min max fun n => .completes (biasedResult min (mtDraw s).1 n) (mtDraw s).2)
  | .mtExactRange min max =>
    ifSeeded s.mtSeeded (withInterval min max fun n =>
      match drawBelowLimit drawsPerStep (s.cacheInterval n) with
      | (some w, t) => .completes (exactResult min w n) t
      | (none, t) => .waits t)
  | .mgInit seed => .completes noResult (s.mgInit seed)
  | .mgNextWord => ifSeeded s.mgSeeded (.completes (wordResult (mgDraw s).1) (mgDraw s).2)
  | .mgNextFloat => ifSeeded s.mgSeeded (.completes (floatConvert (mgDraw s).1) (mgDraw s).2)
  | .mgBiasedRange min max =>
    ifSeeded s.mgSeeded (withInterval min max fun n => .completes (biasedResult min (mgDraw s).1 n) (mgDraw s).2)
  | .stat => .completes (wordResult (statusRegister s)) s

/-- What executing a command can come to: STAT is answered in every state, and every other command is its result under the
preamble. -/
theorem exec_next {i : Instr} {s t : State} (h : exec i s = .next t) :
    (i = .stat ∧ t = s.respond (okResponse (wordResult (statusRegister s)))) ∨
    (i ≠ .stat ∧ t = runCommand i s (commandResult i s)) := by
  have inj : ∀ {a b : State}, (Host.Outcome.next a : Host.Outcome State Fault Refusal) = .next b → b = a := by
    intro a b e; injection e with e; exact e.symm
  have mother : ∀ (j : Instr) (r : CommandResult), runMotherCommand j s r = .next t → t = runCommand j s r := by
    intro j r e
    unfold runMotherCommand at e
    split at e
    · exact inj e
    · cases e
  cases i with
  | stat => exact .inl ⟨rfl, inj h⟩
  | mgInit seed => exact .inr ⟨by simp, mother _ _ h⟩
  | mgNextWord => exact .inr ⟨by simp, mother _ _ h⟩
  | mgNextFloat => exact .inr ⟨by simp, mother _ _ h⟩
  | mgBiasedRange min max => exact .inr ⟨by simp, mother _ _ h⟩
  | _ => exact .inr ⟨by simp, inj h⟩

/-- The fields a command's effect leaves as they were: all but those of its unit and the queue. -/
structure EffectFrame (s t : State) : Prop where
  cfg : t.cfg = s.cfg
  halt : t.halt = s.halt
  faultCode : t.faultCode = s.faultCode
  responses : t.responses = s.responses
  inputs : t.inputs = s.inputs

/-- The state in a result, complete or waiting, keeps the frame. -/
def CommandResult.Framed (s : State) : CommandResult → Prop
  | .completes _ t => EffectFrame s t
  | .waits t => EffectFrame s t
  | .faults _ => True

theorem ifSeeded_framed {s : State} {b : Bool} {r : CommandResult} (h : r.Framed s) : (ifSeeded b r).Framed s := by
  cases b
  · trivial
  · exact h

theorem withInterval_framed {s : State} {min max : Word} {f : Nat → CommandResult} (h : ∀ n, (f n).Framed s) :
    (withInterval min max f).Framed s := by
  unfold withInterval
  split
  · trivial
  · exact h _

theorem mtDraw_frame (s : State) : EffectFrame s (mtDraw s).2 := by constructor <;> simp

theorem mgDraw_frame (s : State) : EffectFrame s (mgDraw s).2 := by constructor <;> simp

theorem mgInit_frame (s : State) (seed : Word) : EffectFrame s (s.mgInit seed) := by constructor <;> simp

/-- The state in a command's result, complete or waiting, keeps the frame. -/
theorem commandResult_frame (i : Instr) (s : State) : (commandResult i s).Framed s := by
  cases i with
  | mtInit seed => exact ⟨rfl, rfl, rfl, rfl, rfl⟩
  | mtInitArray length =>
    simp only [commandResult]
    cases lengthCheck length with
    | none => trivial
    | some n =>
      simp only
      split <;> exact ⟨rfl, rfl, rfl, rfl, rfl⟩
  | mtNextWord => exact ifSeeded_framed (mtDraw_frame s)
  | mtNextFloat => exact ifSeeded_framed (mtDraw_frame s)
  | mtBiasedRange min max => exact ifSeeded_framed (withInterval_framed fun _ => mtDraw_frame s)
  | mtExactRange min max =>
    refine ifSeeded_framed (withInterval_framed fun n => ?_)
    have hf : EffectFrame s (drawBelowLimit drawsPerStep (s.cacheInterval n)).2 := by constructor <;> simp
    revert hf
    generalize drawBelowLimit drawsPerStep (s.cacheInterval n) = d
    obtain ⟨w, t⟩ := d
    intro hf
    cases w <;> exact hf
  | mgInit seed => exact mgInit_frame s seed
  | mgNextWord => exact ifSeeded_framed (mgDraw_frame s)
  | mgNextFloat => exact ifSeeded_framed (mgDraw_frame s)
  | mgBiasedRange min max => exact ifSeeded_framed (withInterval_framed fun _ => mgDraw_frame s)
  | stat => exact ⟨rfl, rfl, rfl, rfl, rfl⟩

/-- What a command under the preamble can come to: a refusal, an answer, a wait or a fault. -/
theorem runCommand_cases {i : Instr} {s t : State} (h : t = runCommand i s (commandResult i s)) :
    (s.halt = true ∧ t = s.refuseHalted) ∨
    (s.halt = false ∧ ∃ v u, commandResult i s = .completes v u ∧ EffectFrame s u ∧ t = u.respond (okResponse v)) ∨
    (s.halt = false ∧ ∃ u, commandResult i s = .waits u ∧ EffectFrame s u ∧ t = { u with executing := some i }) ∨
    (s.halt = false ∧ ∃ c, commandResult i s = .faults c ∧ t = s.raiseFault c) := by
  cases hh : s.halt with
  | true => exact .inl ⟨rfl, by rw [h, runCommand_halted hh]⟩
  | false =>
    have hf := commandResult_frame i s
    cases hr : commandResult i s with
    | completes v u =>
      rw [hr] at hf h
      exact .inr (.inl ⟨rfl, v, u, rfl, hf, by rw [h, runCommand_completes hh]⟩)
    | waits u =>
      rw [hr] at hf h
      exact .inr (.inr (.inl ⟨rfl, u, rfl, hf, by rw [h, runCommand_waits hh]⟩))
    | faults c =>
      rw [hr] at h
      exact .inr (.inr (.inr ⟨rfl, c, rfl, by rw [h, runCommand_faults hh]⟩))

/-! ### The step -/

/-- What a step can come to: the block waits, queues a seed word, is reset, meets a reserved opcode, or executes a command on the state
with its inputs moved on. -/
theorem step_next {s t : State} (h : step s = .next t) :
    (s.executing = none ∧ s.inputs = [] ∧ t = s) ∨
    (∃ w rest, s.executing = none ∧ s.inputs = .seedWord w :: rest ∧ t = { s with inputs := rest }.appendSeed w) ∨
    (∃ rest, s.inputs = .reset :: rest ∧ t = { s with inputs := rest }.hostReset) ∨
    (∃ w rest, s.executing = none ∧ s.inputs = .command w :: rest ∧ t = { s with inputs := rest }.illegalCommand) ∨
    (∃ w rest i, s.executing = none ∧ s.inputs = .command w :: rest ∧ decode w = .ok i ∧
      exec i { s with inputs := rest } = .next t) ∨
    (∃ i, s.executing = some i ∧ s.inputs.head? ≠ some .reset ∧ exec i s = .next t) ∨
    (∃ i w rest, s.executing = some i ∧ s.inputs = .seedWord w :: rest ∧
      exec i ({ s with inputs := rest }.appendSeed w) = .next t) := by
  have inj : ∀ {a b : State}, (Host.Outcome.next a : Host.Outcome State Fault Refusal) = .next b → b = a := by
    intro a b e; injection e with e; exact e.symm
  unfold step nextTurn at h
  cases he : s.executing with
  | none =>
    cases hi : s.inputs with
    | nil =>
      rw [he, hi] at h
      exact .inl ⟨rfl, rfl, inj h⟩
    | cons x rest =>
      rw [he, hi] at h
      cases x with
      | reset => exact .inr (.inr (.inl ⟨rest, rfl, inj h⟩))
      | seedWord w => exact .inr (.inl ⟨w, rest, rfl, rfl, inj h⟩)
      | command w =>
        simp only [takeCommand] at h
        cases hd : decode w with
        | error e =>
          rw [hd] at h
          exact .inr (.inr (.inr (.inl ⟨w, rest, rfl, rfl, inj h⟩)))
        | ok i =>
          rw [hd] at h
          refine .inr (.inr (.inr (.inr (.inl ⟨w, rest, i, rfl, rfl, hd, ?_⟩))))
          simpa [he] using h
  | some i =>
    cases hi : s.inputs with
    | nil =>
      rw [he, hi] at h
      exact .inr (.inr (.inr (.inr (.inr (.inl ⟨i, rfl, by simp, h⟩)))))
    | cons x rest =>
      rw [he, hi] at h
      cases x with
      | reset => exact .inr (.inr (.inl ⟨rest, rfl, inj h⟩))
      | seedWord w =>
        refine .inr (.inr (.inr (.inr (.inr (.inr ⟨i, w, rest, rfl, rfl, ?_⟩)))))
        simpa [he] using h
      | command w => exact .inr (.inr (.inr (.inr (.inr (.inl ⟨i, rfl, by simp, h⟩)))))

end Sys2Proof.Machine
end

