-- ==== Sys2Proof/Laws/PerInstr.lean ====
section
/-! SUPPORT. Per instruction: a command is well formed and its encoding is a canonical word of its own format (30_encoding.md R91,
R101). -/

namespace Sys2Proof.Laws.Canonical

/-- The command is well formed, and its encoding carries an opcode of the command's format and zero in every field the format
ignores. -/
def Statement (i : Instr) : Prop :=
  i.wf = true ∧ formatOf (commandOp (encode i)) = some i.format ∧ isCanonical (encode i) = true

/-- The opcode of an assembled word. -/
theorem commandOp_commandWord (op : BitVec 8) (a b : Word) : commandOp (commandWord op a b) = op := by
  unfold commandOp commandWord
  ext k hk
  simp only [BitVec.getElem_extractLsb']
  rw [BitVec.getLsbD_append, BitVec.getLsbD_append]
  simp [show ¬ (64 + k < 32) by omega, show ¬ (64 + k - 32 < 32) by omega, BitVec.getLsbD_eq_getElem hk,
    show 64 + k - 32 - 32 = k by omega]

/-- The first operand of an assembled word. -/
theorem commandA_commandWord (op : BitVec 8) (a b : Word) : commandA (commandWord op a b) = a := by
  unfold commandA commandWord
  ext k hk
  simp only [BitVec.getElem_extractLsb']
  rw [BitVec.getLsbD_append, BitVec.getLsbD_append]
  simp [show ¬ (32 + k < 32) by omega, show 32 + k - 32 = k by omega, hk]

/-- The second operand of an assembled word. -/
theorem commandB_commandWord (op : BitVec 8) (a b : Word) : commandB (commandWord op a b) = b := by
  unfold commandB commandWord
  ext k hk
  simp only [BitVec.getElem_extractLsb']
  rw [BitVec.getLsbD_append]
  simp [hk]

theorem statement_of_word {i : Instr} (op : BitVec 8) (a b : Word) (he : encode i = commandWord op a b) (hw : i.wf = true)
    (hf : formatOf op = some i.format) (hc : i.format = .z → a = 0) (hb : i.format ≠ .r → b = 0) : Statement i := by
  refine ⟨hw, by rw [he, commandOp_commandWord, hf], ?_⟩
  rw [he, isCanonical, commandOp_commandWord, commandA_commandWord, commandB_commandWord, hf]
  cases h : i.format <;> simp_all

theorem mtInit (seed : Word) : Statement (.mtInit seed) :=
  statement_of_word 0x00 seed 0 rfl rfl rfl (by simp [Instr.format]) (by simp)

theorem mtInitArray (length : Word) : Statement (.mtInitArray length) :=
  statement_of_word 0x01 length 0 rfl rfl rfl (by simp [Instr.format]) (by simp)

theorem mtNextWord : Statement .mtNextWord := statement_of_word 0x02 0 0 rfl rfl rfl (by simp) (by simp)

theorem mtNextFloat : Statement .mtNextFloat := statement_of_word 0x03 0 0 rfl rfl rfl (by simp) (by simp)

theorem mtBiasedRange (min max : Word) : Statement (.mtBiasedRange min max) :=
  statement_of_word 0x04 min max rfl rfl rfl (by simp [Instr.format]) (by simp [Instr.format])

theorem mtExactRange (min max : Word) : Statement (.mtExactRange min max) :=
  statement_of_word 0x05 min max rfl rfl rfl (by simp [Instr.format]) (by simp [Instr.format])

theorem mgInit (seed : Word) : Statement (.mgInit seed) :=
  statement_of_word 0x10 seed 0 rfl rfl rfl (by simp [Instr.format]) (by simp)

theorem mgNextWord : Statement .mgNextWord := statement_of_word 0x12 0 0 rfl rfl rfl (by simp) (by simp)

theorem mgNextFloat : Statement .mgNextFloat := statement_of_word 0x13 0 0 rfl rfl rfl (by simp) (by simp)

theorem mgBiasedRange (min max : Word) : Statement (.mgBiasedRange min max) :=
  statement_of_word 0x14 min max rfl rfl rfl (by simp [Instr.format]) (by simp [Instr.format])

theorem stat : Statement .stat := statement_of_word 0x20 0 0 rfl rfl rfl (by simp) (by simp)

end Sys2Proof.Laws.Canonical
end

