-- ==== Sys2Proof/Tests/Slice0.lean ====
section
/-! SUPPORT. Tests of one step each, with expected values from spec/95_test_vectors.md and the worked examples of the rules, and for each
statement with hypotheses a concrete case that meets them. -/

set_option Elab.async false

namespace Sys2Proof.Tests

open Sys2Proof Sys2Proof.Machine

/-! ### Helpers -/

/-- The next state of an outcome; the reset state where there is none. -/
def after : Host.Outcome State Fault Refusal → State
  | .next t => t
  | .fault _ => State.reset
  | .refused _ => State.reset

/-- The responses after executing a command. -/
def answers (i : Instr) (s : State) : List ResponseWord := (after (exec i s)).responses

/-- Just after MT_INIT 1 from reset. -/
def mtOne : State := State.reset.mtInit 1

/-- Just after MG_INIT 0 from reset. -/
def mgZero : State := State.reset.mgInit 0

/-- A seeded MT unit whose next words are `0xFF4780EB` and `0xB8672F8C`: the second and third words of MT_INIT 1 (V-RG-2, V-RG-3). -/
def mtTwoWords : State :=
  { State.reset with mt := mtSet (mtSet (Block.fill 0) 0 0xB1D19108) 1 0x28A01717, index := 0, mtSeeded := true }

/-- Halted by `UNSEEDED` after MG_INIT 0 (program P4). -/
def haltedState : State := mgZero.raiseFault .unseeded

/-! ### Well-formedness: a term each check refuses, beside one it accepts -/

theorem test_wf_format_z : isCanonical 0x020000000000000000 = true ∧ isCanonical 0x020000000100000000 = false ∧
    isCanonical 0x020000000000000001 = false := by decide +kernel
theorem test_wf_format_s : isCanonical 0x000000000700000000 = true ∧ isCanonical 0x0000000007FFFFFFFF = false := by decide +kernel
theorem test_wf_format_v : isCanonical 0x010000000400000000 = true ∧ isCanonical 0x010000000400000001 = false := by decide +kernel
theorem test_wf_reserved : isCanonical 0x140000000100000006 = true ∧ isCanonical 0x150000000100000006 = false := by decide +kernel
theorem test_wf_weights : Config.default.wf = true ∧
    ({ Config.default with mgW0 := 0xFFFFFFFF } : Config).wf = false := by decide +kernel
theorem test_wf_instr : (Instr.mtExactRange 5 4).wf = true := by decide

/-! ### Decoding: words written out from 30_encoding.md R90, R93 and V-ENC -/

theorem test_decode_mtInit : decode 0x0000000007FFFFFFFF = .ok (.mtInit 7) := by decide +kernel
theorem test_decode_mtInitArray : decode 0x018000000000000000 = .ok (.mtInitArray 0x80000000) := by decide +kernel
theorem test_decode_mtNextWord : decode 0x02DEADBEEF12345678 = .ok .mtNextWord := by decide +kernel
theorem test_decode_mtNextFloat : decode 0x030000000000000000 = .ok .mtNextFloat := by decide +kernel
theorem test_decode_mtBiasedRange : decode 0x04800000007FFFFFFF = .ok (.mtBiasedRange 0x80000000 0x7FFFFFFF) := by decide +kernel
theorem test_decode_mtExactRange : decode 0x05FFFFFF9C00000064 = .ok (.mtExactRange 0xFFFFFF9C 0x64) := by decide +kernel
theorem test_decode_mgInit : decode 0x10FFFFFFFF00000000 = .ok (.mgInit 0xFFFFFFFF) := by decide +kernel
theorem test_decode_mgNextWord : decode 0x120000000000000000 = .ok .mgNextWord := by decide +kernel
theorem test_decode_mgNextFloat : decode 0x130000000000000000 = .ok .mgNextFloat := by decide +kernel
theorem test_decode_mgBiasedRange : decode 0x140000000100000006 = .ok (.mgBiasedRange 1 6) := by decide +kernel
theorem test_decode_stat : decode 0x200000000000000000 = .ok .stat := by decide +kernel
/-- V-ENC-14. -/
theorem test_decode_reserved : decode 0x110000000000000000 = .error (.reservedOpcode 0x11) ∧
    decode 0x060000000000000000 = .error (.reservedOpcode 0x06) ∧ decode 0xFF0000000000000000 = .error (.reservedOpcode 0xFF) := by
  decide +kernel
/-- R101's examples, and the table's numbering of a word. -/
theorem test_encode : encode (.mtInit 1) = 0x000000000100000000 ∧ encode (.mtExactRange 0xFFFFFF9C 100) = 0x05FFFFFF9C00000064 ∧
    decodeTableWord 72 0x140000000000000000 = some (.mgBiasedRange 0 0) := by decide +kernel

/-! ### MT seeding -/

/-- V-MT-1. -/
theorem test_mtInit : (after (exec (.mtInit 1) State.reset)).mt.words[1]? = some 0x6C078966 ∧
    (after (exec (.mtInit 1) State.reset)).mt.words[623]? = some 0x7B5687A5 ∧ (after (exec (.mtInit 1) State.reset)).index = 624 := by
  decide +kernel
/-- V-MT-4, the multiply wraps. -/
theorem test_mtInit_wraps : (after (exec (.mtInit 0xFFFFFFFF) State.reset)).mt.words[3]? = some 0xC1331AF4 := by decide +kernel
/-- V-MT-5. -/
theorem test_mtInitArray :
    let t := after (exec (.mtInitArray 4) { State.reset with seedq := [0x123, 0x234, 0x345, 0x456, 9] })
    t.mt.words[0]? = some 0x80000000 ∧ t.mt.words[1]? = some 0x6CF23357 ∧ t.mt.words[623]? = some 0x049ED813 ∧ t.seedq = [9] := by decide +kernel
/-- V-MT-8 with the first word drawn, and V-MT-9's first word: more seed words than the register holds. -/
theorem test_arraySeed_words : (mtDraw (State.reset.mtInitArray [5, 6])).1 = 2987887136 ∧
    (mtDraw (State.reset.mtInitArray ((List.range 700).map fun n => BitVec.ofNat 32 (n + 1)))).1 = 1434167400 := by
  decide +kernel

/-! ### MT draws -/

/-- R144's worked example, and V-RG-4 and V-RG-5: the register after the first draw. -/
theorem test_mtNextWord : answers .mtNextWord mtOne = [okResponse 0x6AC1F425] ∧
    (after (exec .mtNextWord mtOne)).mt.words[227]? = some 0x7B12610F ∧ (after (exec .mtNextWord mtOne)).mt.words[623]? = some 0x06F82359 := by
  decide +kernel
/-- V-RG-6: the draw that finds `index = 623` leaves 624 and does not regenerate. -/
theorem test_mtNextWord_last :
    (after (exec .mtNextWord { mtTwoWords with index := 623 })).index = 624 ∧
    (after (exec .mtNextWord { mtTwoWords with index := 623 })).mt = mtTwoWords.mt := by decide +kernel
/-- V-NF-1 and V-FC-7. -/
theorem test_mtNextFloat : answers .mtNextFloat mtOne = [okResponse 0x3FDAB07D09400000] ∧
    floatConvert 0xFFFFFFFF = 0x3FEFFFFFFFE00000 := by decide +kernel
/-- R185's worked example. -/
theorem test_mtBiasedRange : answers (.mtBiasedRange 0xFFFFFF9C 100) mtOne = [okResponse 0x00000000FFFFFFEF] := by decide +kernel
/-- V-BM-12 to V-BM-16: the rounding carries. -/
theorem test_biasedMap : biasedMap 0x80000001 2147483647 = 1073741824 ∧ biasedMap 0x2AAAAAAB 2147483645 = 357913941 ∧
    biasedMap 0x5FFFFFFF 1610612737 = 603979776 ∧ biasedMap 0x84B77C49 1000000007 = 518424770 := by decide +kernel
/-- Program P3, command 3: the first word is rejected and lost, and the cache holds the interval. -/
theorem test_mtExactRange_rejects :
    let t := after (exec (.mtExactRange 0 0x40000000) mtTwoWords)
    t.responses = [okResponse 0x38672F8A] ∧ t.index = 2 ∧ t.lastInterval = 0x40000001 ∧ t.rejectionLimit = 0xC0000003 := by
  decide +kernel
/-- V-EX-5. -/
theorem test_mtExactRange : answers (.mtExactRange 0x80000000 0xFFFFFFFF) mtOne = [okResponse 0xEAC1F425] := by decide +kernel

/-! ### The MG unit -/

/-- V-MG-1. -/
theorem test_mgInit : (after (exec (.mgInit 0) State.reset)).hist =
    #v[0xFFFFFFFF, 0xFE3717EA, 0x61010631, 0xE9F9EA04, 0x84B3D253] := by decide +kernel
/-- V-MG-8: a block configured with 19 warm-up draws. -/
theorem test_mgInit_warmup :
    (after (exec (.mgInit 1) (State.boot { Config.default with mgWarmup := 19 } []))).hist =
      #v[0xD759DFA7, 0xF87F49BC, 0x3AF63BD9, 0x8B86BDEE, 0x47FFAACF] := by decide +kernel
/-- V-MG-6. -/
theorem test_mgNextWord : (after (exec .mgNextWord { mgZero with hist := #v[1, 2, 3, 4, 5] })).hist =
    #v[0xF7543278, 1, 2, 3, 1] := by decide +kernel
/-- V-MG-7: the largest history. -/
theorem test_mgNextWord_largest :
    (motherNext Config.default (Vector.replicate 5 0xFFFFFFFF)) = #v[0x822ADF79, 0xFFFFFFFF, 0xFFFFFFFF, 0xFFFFFFFF, 0x7DD52086] := by
  decide +kernel
/-- V-MG-9. -/
theorem test_mgNextFloat : answers .mgNextFloat mgZero = [okResponse 0x3FAB2140D0000000] := by decide +kernel
/-- V-MG-11. -/
theorem test_mgBiasedRange : answers (.mgBiasedRange 0xFFFFFF9C 100) (State.reset.mgInit 1) = [okResponse 0x27] := by
  decide +kernel

/-! ### Faults, STAT, the host -/

/-- V-FLT-4: `SR = 0x14` after `UNSEEDED`. -/
theorem test_stat_after_fault :
    answers .stat (after (exec .mtNextWord State.reset)) = [errResponse 2, okResponse 0x14] := by decide +kernel
/-- V-FLT-7 and V-FLT-6: the widest accepted range, one wider, and an empty one. -/
theorem test_rangeCheck : rangeCheck 0xC0000000 0x3FFFFFFF = some (2 ^ 31) ∧ rangeCheck 0xC0000000 0x40000000 = none ∧
    rangeCheck 5 4 = none ∧ rangeCheck 7 7 = some 1 := by decide +kernel
/-- V-FLT-8: UNSEEDED before PRECOND_RANGE. -/
theorem test_fault_order : answers (.mtBiasedRange 5 4) State.reset = [errResponse 2] := by decide +kernel
/-- V-FLT-10: the queued words stay, and `SR = 0x25`. -/
theorem test_length_fault :
    (after (exec (.mtInitArray 0xFFFFFFFF) { mtOne with seedq := [1, 2] })).seedq = [1, 2] ∧
    statusRegister (after (exec (.mtInitArray 0xFFFFFFFF) { mtOne with seedq := [1, 2] })) = 0x25 := by decide +kernel
/-- V-FLT-9: a reserved opcode. -/
theorem test_illegal :
    (after (step { State.reset with inputs := [.command 0xFF0000000000000000] })).responses = [errResponse 1] := by decide +kernel
/-- V-FLT-11: refused while halted, the seeding commands too. -/
theorem test_halted : answers (.mtInit 1) haltedState = [errResponse 2, errResponse 7] := by decide +kernel
/-- V-FLT-12. -/
theorem test_reset : statusRegister (after (step { haltedState with inputs := [.reset] })) = 0 := by decide +kernel
/-- R100: a line of the assembler. -/
theorem test_line : Line.inputs (.mtInitArray [0x123, 0x234]) =
    [.seedWord 0x123, .seedWord 0x234, .command 0x010000000200000000] := by decide +kernel

/-- R296: the run has ended cleanly with the response to its last command, though a seed word is still to come; not before it, and a
run whose last command faults has not ended cleanly. -/
theorem test_run_end :
    let s := State.boot Config.default [.command 0x200000000000000000, .seedWord 5]
    ¬ s.runEnded ∧ (after (step s)).endedCleanly ∧ (after (step (after (step s)))).endedCleanly ∧
      (after (step { State.reset with inputs := [.command 0xFF0000000000000000] })).runEnded ∧
      ¬ (after (step { State.reset with inputs := [.command 0xFF0000000000000000] })).endedCleanly := by decide +kernel
/-- R292, R296: a run whose MT_INIT_ARRAY still waits for a seed word has not ended. -/
theorem test_run_waits : ¬ (after (step (State.boot Config.default [.command 0x010000000100000000]))).runEnded := by decide +kernel

/-! ### Cases that meet the hypotheses of the statements -/

theorem witness_IgnoredFieldsAreDropped : decode 0x02DEADBEEF12345678 = .ok .mtNextWord ∧ decode 0x0000000007FFFFFFFF = .ok (.mtInit 7) ∧
    decode 0x01000000020000000F = .ok (.mtInitArray 2) ∧ decode 0x140000000100000006 = .ok (.mgBiasedRange 1 6) := by
  decide +kernel

theorem witness_ReservedOpcodesAreRejected :
    commandOp 0x060000000000000000 ∉ [0x00, 0x01, 0x02, 0x03, 0x04, 0x05, 0x10, 0x12, 0x13, 0x14, 0x20] ∧
    commandOp 0x210000000000000000 ∉ [0x00, 0x01, 0x02, 0x03, 0x04, 0x05, 0x10, 0x12, 0x13, 0x14, 0x20] ∧
    commandOp 0x050000000000000000 ∈ [0x00, 0x01, 0x02, 0x03, 0x04, 0x05, 0x10, 0x12, 0x13, 0x14, 0x20] ∧
    commandOp 0x200000000000000000 ∈ [0x00, 0x01, 0x02, 0x03, 0x04, 0x05, 0x10, 0x12, 0x13, 0x14, 0x20] := by
  decide +kernel

theorem witness_StepRunsTheDecodedCommand :
    (∃ s : State, s.executing = none ∧ s.inputs = [.command 0x200000000000000000] ∧ decode 0x200000000000000000 = .ok .stat) ∧
    (∃ s : State, s.executing = some (.mtInitArray 2) ∧ s.inputs = [.command 0x200000000000000000]) ∧
    (∃ s : State, s.executing = some (.mtInitArray 2) ∧ s.inputs = []) ∧
    (∃ s : State, s.executing = some (.mtInitArray 2) ∧ s.inputs = [.seedWord 5]) ∧
    decodeTableWord 72 0x200000000000000000 = some .stat :=
  ⟨⟨{ State.reset with inputs := [.command 0x200000000000000000] }, rfl, rfl, by decide +kernel⟩,
   ⟨{ State.reset with inputs := [.command 0x200000000000000000], executing := some (.mtInitArray 2) }, rfl, rfl⟩,
   ⟨{ State.reset with executing := some (.mtInitArray 2) }, rfl, rfl⟩,
   ⟨{ State.reset with inputs := [.seedWord 5], executing := some (.mtInitArray 2) }, rfl, rfl⟩, by decide +kernel⟩

theorem witness_ReservedOpcodeFaults :
    commandOp 0x1F0000000000000000 ∉ [0x00, 0x01, 0x02, 0x03, 0x04, 0x05, 0x10, 0x12, 0x13, 0x14, 0x20] ∧
    (∃ s : State, s.executing = none ∧ s.inputs = [.command 0x1F0000000000000000] ∧ s.halt = false) ∧
    (∃ s : State, s.executing = none ∧ s.inputs = [.command 0x1F0000000000000000] ∧ s.halt = true) :=
  ⟨by decide +kernel, ⟨{ State.reset with inputs := [.command 0x1F0000000000000000] }, rfl, rfl, rfl⟩,
   ⟨{ haltedState with inputs := [.command 0x1F0000000000000000] }, rfl, rfl, rfl⟩⟩

theorem witness_IdleBlockQueuesSeedWordsOrWaits :
    (∃ s : State, s.executing = none ∧ s.inputs = [.seedWord 5]) ∧ (∃ s : State, s.executing = none ∧ s.inputs = []) :=
  ⟨⟨{ State.reset with inputs := [.seedWord 5] }, rfl, rfl⟩, ⟨State.reset, rfl, rfl⟩⟩

theorem witness_ResetAtAnyTime : ∃ s : State, s.inputs = [.reset] ∧ s.executing = some (.mtInitArray 2) :=
  ⟨{ mtOne with inputs := [.reset], executing := some (.mtInitArray 2) }, rfl, rfl⟩

theorem witness_EveryStepGoesOn : State.reset.cfg.wf = true := by decide +kernel

theorem witness_OneResponsePerCommand :
    (∃ t, exec .mtNextWord mtOne = .next t) ∧ ∃ t, exec (.mtInitArray 2) State.reset = .next t := ⟨⟨_, rfl⟩, ⟨_, rfl⟩⟩

theorem witness_SeedWordsBeforeOrAfterTheCommand : State.reset.halt = false ∧ State.reset.executing = none ∧ State.reset.seedq = [] ∧
    (2 : Word).toInt = (([7, 8] : List Word).length : Int) ∧ ([7, 8] : List Word) ≠ [] := by decide +kernel

theorem witness_ArraySeedingIsThePseudocode : ([1] : List Word) ≠ [] := by decide

theorem witness_SeededRegisterIsNotZero : Config.default.mtArrayW0 ≠ 0 := by decide +kernel

theorem witness_MotherDrawLosesNothing : Config.default.wf = true ∧
    ({ Config.default with mgW0 := 0, mgW1 := 0, mgW2 := 0, mgW3 := 0xFFFFFFFF } : Config).wf = true := by decide +kernel

theorem witness_MotherFixedPointsAreNotSeeded : State.reset.cfg = Config.default ∧ State.reset.halt = false ∧
    ∃ t, exec (.mgInit 0) State.reset = .next t := ⟨rfl, rfl, ⟨mgZero.respond (okResponse noResult), rfl⟩⟩

theorem witness_FloatResultFields : 2 ^ 31 ≤ (0xFFFFFFFF : Word).toNat ∧ (0xFFFFFFFF : Word).toNat < 2 ^ (31 + 1) ∧
    2 ^ 0 ≤ (1 : Word).toNat ∧ (1 : Word).toNat < 2 ^ (0 + 1) := by decide +kernel

theorem witness_FloatResultBounds : (0 : Word).toNat < (1 : Word).toNat := by decide +kernel

theorem witness_ProductRoundsToNearestEven : (2 ^ 53 - 1 < 2 ^ 53 ∧ 2 ^ 53 - 1 < 2 ^ 63) ∧
    (1 ≤ 1 ∧ 2 ^ (52 + 1) ≤ 2 ^ 53 ∧ 2 ^ 53 < 2 ^ (53 + 1)) ∧
    (1 ≤ 10 ∧ 2 ^ (52 + 10) ≤ 2 ^ 63 - 1 ∧ 2 ^ 63 - 1 < 2 ^ (53 + 10) ∧ 2 ^ 63 - 1 < 2 ^ 63) := by decide +kernel

theorem witness_BiasedMapProperties : (1 ≤ 2 ^ 31 ∧ 2 ^ 31 ≤ 2 ^ 31) ∧ (0xFFFFFFFF : Word).toNat * 2 ^ 21 < 2 ^ 53 ∧
    2 ^ 21 ≤ 2 ^ 21 ∧ 31 ≤ 31 := by decide +kernel

/-- For RejectionLimitIsTheLargestMultiple and AcceptedWordsAreUnbiased. -/
theorem witness_RejectionLimit : 1 ≤ 1 ∧ 1 ≤ 2 ^ 31 ∧ 1 ≤ 2 ^ 31 ∧ 2 ^ 31 ≤ 2 ^ 31 ∧ 0 < 1 := by decide

theorem witness_MtInitResult : State.reset.halt = false := rfl

theorem witness_MtInitArrayResult : ({ State.reset with seedq := [7] } : State).halt = false ∧ (1 : Word).toInt = ((1 : Nat) : Int) ∧
    1 ≤ 1 ∧ 1 ≤ ({ State.reset with seedq := [7] } : State).seedq.length := by decide +kernel

theorem witness_MtInitArrayWaits : State.reset.halt = false ∧ (1 : Word).toInt = ((1 : Nat) : Int) ∧ State.reset.seedq.length < 1 := by
  decide +kernel

/-- For MtNextWordResult and MtNextFloatResult: a draw that regenerates and one that does not. -/
theorem witness_MtDraw : mtOne.halt = false ∧ mtOne.mtSeeded = true ∧ mtOne.index = 624 ∧
    mtTwoWords.halt = false ∧ mtTwoWords.mtSeeded = true ∧ mtTwoWords.index = 0 := by decide +kernel

/-- For MtBiasedRangeResult: the narrowest and the widest range. -/
theorem witness_MtBiasedRangeResult : mtOne.halt = false ∧ mtOne.mtSeeded = true ∧ (7 : Word).toInt ≤ (7 : Word).toInt ∧
    (7 : Word).toInt - (7 : Word).toInt < 2 ^ 31 ∧ (0x80000000 : Word).toInt ≤ (0xFFFFFFFF : Word).toInt ∧
    (0xFFFFFFFF : Word).toInt - (0x80000000 : Word).toInt < 2 ^ 31 := by decide +kernel

theorem witness_MtExactRangeResult : mtTwoWords.halt = false ∧ mtTwoWords.mtSeeded = true ∧ mtTwoWords.CacheConsistent ∧
    (0 : Word).toInt ≤ (0x40000000 : Word).toInt ∧ (0x40000000 : Word).toInt - (0 : Word).toInt < 2 ^ 31 ∧ 1 < drawsPerStep ∧
    (∀ j < 1, rejectionLimitOf 0x40000001 ≤ (mtDrawnWord (afterMtDraws j mtTwoWords)).toNat) ∧
    (mtDrawnWord (afterMtDraws 1 mtTwoWords)).toNat < rejectionLimitOf 0x40000001 ∧
    ((0x40000000 : Word).toInt - (0 : Word).toInt + 1).toNat = 0x40000001 := by decide +kernel

/-- A block whose every word is all ones: constants under which the register of ones regenerates to itself and is not tempered. -/
def stuckConfig : Config := { Config.default with mtA := 0x7FFFFFFF, mtB := 0, mtC := 0, mtU := 32, mtL := 32 }

def onesBlock : Block := Block.fill 0xFFFFFFFF

def stuckState : State := { State.boot stuckConfig [] with mt := onesBlock, index := 0, mtSeeded := true }

theorem mtWord_onesBlock {i : Nat} (h : i < 624) : mtWord onesBlock i = 0xFFFFFFFF := by
  unfold mtWord onesBlock Block.fill
  rw [List.getElem?_replicate, if_pos h, Option.getD_some]

theorem mtSet_onesBlock (i : Nat) : mtSet onesBlock i 0xFFFFFFFF = onesBlock := by
  unfold mtSet onesBlock Block.fill
  congr 1
  exact List.set_replicate_self

theorem regenerateLoop_onesBlock : regenerateLoop stuckConfig onesBlock = onesBlock := by
  unfold regenerateLoop
  have h : ∀ n i : Nat, n + i ≤ 624 → forAscending
      (fun i mt =>
        let y := (mtWord mt i &&& 0x80000000) ||| (mtWord mt ((i + 1) % 624) &&& 0x7FFFFFFF)
        mtSet mt i (mtWord mt ((i + 397) % 624) ^^^ (y >>> 1) ^^^ (if y.getLsbD 0 then stuckConfig.mtA else 0)))
      n i onesBlock = onesBlock := by
    intro n
    induction n with
    | zero => intro i _; rfl
    | succ n ih =>
      intro i hi
      simp only [forAscending]
      rw [mtWord_onesBlock (i := i) (by omega), mtWord_onesBlock (i := (i + 1) % 624) (Nat.mod_lt _ (by omega)),
        mtWord_onesBlock (i := (i + 397) % 624) (Nat.mod_lt _ (by omega))]
      have : (0xFFFFFFFF : Word) ^^^ (((0xFFFFFFFF : Word) &&& 0x80000000 ||| 0xFFFFFFFF &&& 0x7FFFFFFF) >>> 1) ^^^
          (if ((0xFFFFFFFF : Word) &&& 0x80000000 ||| 0xFFFFFFFF &&& 0x7FFFFFFF).getLsbD 0 = true then stuckConfig.mtA else 0) =
          0xFFFFFFFF := by decide +kernel
      rw [this, mtSet_onesBlock]
      exact ih (i + 1) (by omega)
  exact h 624 0 (by omega)

theorem mtDrawLoop_onesBlock (index : BitVec 10) :
    (mtDrawLoop stuckConfig onesBlock index).1 = 0xFFFFFFFF ∧ (mtDrawLoop stuckConfig onesBlock index).2.1 = onesBlock := by
  have hm : (if index.toNat ≥ 624 then regenerateLoop stuckConfig onesBlock else onesBlock) = onesBlock := by
    rw [regenerateLoop_onesBlock]; split <;> rfl
  have hi : (if index.toNat ≥ 624 then (0 : BitVec 10) else index).toNat < 624 := by
    split
    · decide
    · omega
  simp only [mtDrawLoop, hm, and_true]
  rw [mtWord_onesBlock hi]
  decide +kernel

theorem drawn_of_stuck (j : Nat) (s : State) (hc : s.cfg = stuckConfig) (hm : s.mt = onesBlock) :
    mtDrawnWord (afterMtDraws j s) = 0xFFFFFFFF := by
  induction j generalizing s with
  | zero => simpa [afterMtDraws, mtDrawnWord, hc, hm] using (mtDrawLoop_onesBlock s.index).1
  | succ j ih =>
    exact ih (afterMtDraw s) hc (by simpa [afterMtDraw, hc, hm] using (mtDrawLoop_onesBlock s.index).2)

theorem witness_MtExactRangeGoesOn : stuckState.halt = false ∧ stuckState.mtSeeded = true ∧ stuckState.CacheConsistent ∧
    (0 : Word).toInt ≤ (2 : Word).toInt ∧ (2 : Word).toInt - (0 : Word).toInt < 2 ^ 31 ∧
    ∀ j < drawsPerStep, rejectionLimitOf ((2 : Word).toInt - (0 : Word).toInt + 1).toNat ≤
      (mtDrawnWord (afterMtDraws j stuckState)).toNat := by
  refine ⟨rfl, rfl, by decide +kernel, by decide +kernel, by decide +kernel, fun j _ => ?_⟩
  rw [drawn_of_stuck j stuckState rfl rfl]
  decide +kernel

theorem witness_MgInitResult : State.reset.halt = false ∧ State.reset.cfg.wf = true := by decide +kernel

/-- For MgNextWordResult and MgNextFloatResult. -/
theorem witness_MgDraw : mgZero.halt = false ∧ mgZero.mgSeeded = true ∧ mgZero.cfg.wf = true := by decide +kernel

theorem witness_MgBiasedRangeResult : mgZero.halt = false ∧ mgZero.mgSeeded = true ∧ mgZero.cfg.wf = true ∧
    (7 : Word).toInt ≤ (7 : Word).toInt ∧ (7 : Word).toInt - (7 : Word).toInt < 2 ^ 31 ∧
    (0x80000000 : Word).toInt ≤ (0xFFFFFFFF : Word).toInt ∧
    (0xFFFFFFFF : Word).toInt - (0x80000000 : Word).toInt < 2 ^ 31 := by decide +kernel

theorem witness_UnseededUnitFaults : State.reset.halt = false ∧ mtDrawing (.mtExactRange 5 4) = true ∧ State.reset.mtSeeded = false ∧
    mgDrawing .mgNextFloat = true ∧ State.reset.mgSeeded = false ∧ State.reset.cfg.wf = true := by decide +kernel

theorem witness_MalformedOperandsFault : mtOne.halt = false ∧ mtOne.mtSeeded = true ∧ mgZero.halt = false ∧ mgZero.mgSeeded = true ∧
    mgZero.cfg.wf = true ∧ (4 : Word).toInt < (5 : Word).toInt ∧
    (0x40000000 : Word).toInt - (0xC0000000 : Word).toInt ≥ 2 ^ 31 ∧ (0 : Word).toInt < 1 ∧ (0x80000000 : Word).toInt < 1 := by
  decide +kernel

theorem witness_HaltedBlockRefuses : (haltedState.halt = true ∧ Instr.mgNextWord ≠ .stat ∧ mgCommand .mgNextWord = true ∧
    haltedState.cfg.wf = true) ∧ haltedState.executing = none ∧
    commandOp 0x1F0000000000000000 ∉ [0x00, 0x01, 0x02, 0x03, 0x04, 0x05, 0x10, 0x12, 0x13, 0x14, 0x20] ∧
    { haltedState with inputs := [.command 0x1F0000000000000000] }.inputs = [.command 0x1F0000000000000000] ∧
    { haltedState with inputs := [.seedWord 5] }.inputs = [.seedWord 5] := by decide +kernel

theorem witness_FaultsArePrecise : State.reset.halt = false ∧ ∃ t, exec .mtNextWord State.reset = .next t ∧ t.halt = true :=
  ⟨rfl, _, rfl, rfl⟩

theorem witness_OnlyResetLeavesTheHalt :
    (∃ s t : State, s.halt = true ∧ step s = .next t ∧ s.inputs.head? ≠ some .reset) ∧
    (∃ s t : State, s.halt = true ∧ step s = .next t ∧ s.inputs.head? = some .reset) :=
  ⟨⟨haltedState, _, rfl, rfl, by decide +kernel⟩, ⟨{ haltedState with inputs := [.reset] }, _, rfl, rfl, rfl⟩⟩

theorem witness_EveryStepKeepsTheInvariant : State.reset.Inv ∧ ∃ t, step State.reset = .next t :=
  ⟨⟨by decide +kernel, fun h => absurd rfl h, by decide +kernel, by decide +kernel, fun _ => rfl,
    fun _ h => absurd h List.not_mem_nil⟩, State.reset, rfl⟩

theorem witness_CursorStaysInRange : State.reset.IndexInRange ∧ mtTwoWords.IndexInRange ∧
    (∃ t, exec .mtNextWord mtTwoWords = .next t) ∧ (∃ t, State.reset.halt = false ∧ exec (.mtInit 1) State.reset = .next t) ∧
    ∃ t, exec (.mtInitArray 1) { State.reset with seedq := [7] } = .next t ∧ t.halt = false ∧ t.executing = none :=
  ⟨by decide +kernel, by decide +kernel, ⟨_, rfl⟩, ⟨_, rfl, rfl⟩, (({ State.reset with seedq := [] } : State).mtInitArray [7]).respond (okResponse 0), rfl, rfl, rfl⟩

/-- For ParametersNeverChange. -/
theorem witness_ParametersNeverChange : ∃ t, step { mtOne with inputs := [.reset] } = .next t := ⟨_, rfl⟩

/-- For SeededFlagsOnlySetBySeeding and CommandsKeepToTheirUnit. -/
theorem witness_SeededFlags :
    (∃ t, exec (.mtInit 1) State.reset = .next t ∧ State.reset.mtSeeded = false ∧ t.mtSeeded = true) ∧
    (∃ t, exec (.mgInit 0) State.reset = .next t ∧ State.reset.mgSeeded = false ∧ t.mgSeeded = true) ∧
    mtCommand (.mgInit 0) = false ∧ mgCommand (.mtInit 1) = false :=
  ⟨⟨_, rfl, rfl, rfl⟩, ⟨mgZero.respond (okResponse noResult), rfl, rfl, rfl⟩, rfl, rfl⟩

theorem witness_MgCommandsSeeOnlyTheMgUnit : ∃ s s' t t' : State, mgCommand .mgNextWord = true ∧ s.cfg = s'.cfg ∧ s.halt = s'.halt ∧
    SameMg s s' ∧ s.mtSeeded ≠ s'.mtSeeded ∧ exec .mgNextWord s = .next t ∧ exec .mgNextWord s' = .next t' := by
  refine ⟨mgZero, { mgZero with mtSeeded := true }, (mgDraw mgZero).2.respond (okResponse (wordResult (mgDraw mgZero).1)),
    (mgDraw { mgZero with mtSeeded := true }).2.respond (okResponse (wordResult (mgDraw mgZero).1)), rfl, rfl, rfl, ⟨rfl, rfl⟩, ?_,
    rfl, rfl⟩
  decide +kernel

theorem witness_MtCommandsDoNotSeeTheCache : ∃ s s' t t' : State, mtCommand .mtNextWord = true ∧ MtAlike s s' ∧ s.CacheConsistent ∧
    s'.CacheConsistent ∧ s.lastInterval ≠ s'.lastInterval ∧ exec .mtNextWord s = .next t ∧ exec .mtNextWord s' = .next t' := by
  refine ⟨mtTwoWords, mtTwoWords.cacheInterval 3, _, _, rfl, ⟨rfl, rfl, rfl, rfl, rfl, rfl⟩, ?_, ?_, ?_, rfl, rfl⟩ <;> decide +kernel

theorem witness_MtInitForgetsThePast : State.reset.cfg = mtTwoWords.cfg ∧ State.reset.seedq = mtTwoWords.seedq ∧
    State.reset.halt = false ∧ mtTwoWords.halt = false := ⟨rfl, rfl, rfl, rfl⟩

theorem witness_UnitsCommute : ∃ s a b c d : State, mtCommand (.mtInit 1) = true ∧ mgCommand (.mgInit 0) = true ∧
    exec (.mtInit 1) s = .next a ∧ exec (.mgInit 0) a = .next b ∧ exec (.mgInit 0) s = .next c ∧ exec (.mtInit 1) c = .next d ∧
    b.halt = false ∧ d.halt = false ∧ a.executing = none := by
  refine ⟨State.reset, (State.reset.mtInit 1).respond (okResponse 0),
    (((State.reset.mtInit 1).respond (okResponse 0)).mgInit 0).respond (okResponse 0),
    mgZero.respond (okResponse 0), ((mgZero.respond (okResponse 0)).mtInit 1).respond (okResponse 0), rfl, rfl, rfl, ?_, ?_, rfl, ?_, ?_,
    rfl⟩
  · rfl
  · rfl
  · decide +kernel
  · decide +kernel

/-- Both clauses: a command answered and one that waits, with no command ahead; and an ended run before a seed word and before nothing. -/
theorem witness_RunEndsWithTheLastResponse :
    (commandsAhead State.reset.inputs = [] ∧ (∃ t, exec .stat State.reset = .next t) ∧
      ∃ t, exec (.mtInitArray 2) State.reset = .next t) ∧
    (∃ s t : State, s.runEnded ∧ s.inputs = [.seedWord 5] ∧ s.inputs.head? ≠ some .reset ∧ step s = .next t) ∧
    ∃ t, State.reset.runEnded ∧ State.reset.inputs.head? ≠ some .reset ∧ step State.reset = .next t :=
  ⟨⟨rfl, ⟨_, rfl⟩, ⟨_, rfl⟩⟩,
   ⟨{ State.reset with inputs := [.seedWord 5] }, _, ⟨rfl, rfl⟩, rfl, by decide +kernel, rfl⟩,
   ⟨_, ⟨rfl, rfl⟩, by decide +kernel, rfl⟩⟩

end Sys2Proof.Tests
end

/-! ## Scope (00_scope.md): the parameters, the two units and what they see of each other

A predicate or a relation is proved of the states in a command's result (`CommandResult.Leaves`, `CommandResult.Related`); two lemmas
lift it to `exec`: `exec_leaves` for one run, `exec_related` for two runs side by side. -/

section
namespace Sys2Proof.Machine

/-! ### Commands and steps of a block with legal parameters -/

/-- Only the weights' check of an MG command can stop `exec` (00_scope.md R7, entry 9). -/
theorem exec_total {s : State} (hwf : s.cfg.wf = true) (i : Instr) : ∃ t, exec i s = .next t := by
  have mother : ∀ (j : Instr) (r : CommandResult), ∃ t, runMotherCommand j s r = .next t :=
    fun j r => ⟨runCommand j s r, if_pos hwf⟩
  cases i with
  | mgInit seed => exact mother _ _
  | mgNextWord => exact mother _ _
  | mgNextFloat => exact mother _ _
  | mgBiasedRange min max => exact mother _ _
  | _ => exact ⟨_, rfl⟩

theorem takeCommand_run_state {s t : State} {w : CommandWord} {i : Instr} (h : takeCommand w s = .run i t) : t = s := by
  unfold takeCommand at h
  split at h
  · cases h; rfl
  · cases h

/-- What the host does before a command runs leaves the parameters. -/
theorem nextTurn_run_cfg {s t : State} {i : Instr} (h : nextTurn s = .run i t) : t.cfg = s.cfg := by
  unfold nextTurn at h
  split at h
  case h_1 => split at h <;> cases h <;> rfl
  case h_2 =>
    split at h
    case h_3 => rw [takeCommand_run_state h]
    all_goals cases h

/-- Settles O11: a step either settles at once or executes a command under the same parameters, and `exec` is total under legal ones. -/
theorem everyStepGoesOn : Obligations.EveryStepGoesOn := by
  unfold Obligations.EveryStepGoesOn
  intro s hwf
  unfold step
  cases hturn : nextTurn s with
  | settled t => exact ⟨t, rfl⟩
  | run i t => exact exec_total (by rw [nextTurn_run_cfg hturn, hwf]) i

/-! ### The Mother draw -/

/-- The draw of the pseudocode is the machine's. -/
theorem mgDrawLoop_eq_motherNext (c : Config) (h : History) : mgDrawLoop c h = ((motherNext c h)[0], motherNext c h) := by
  obtain ⟨⟨l⟩, hl⟩ := h
  match l, hl with
  | [_, _, _, _, _], _ => rfl

theorem motherNext_getElem (c : Config) (h : History) :
    (motherNext c h)[0] = BitVec.ofNat 32 (motherSum c h % 2 ^ 32) ∧ (motherNext c h)[1] = h[0] ∧ (motherNext c h)[2] = h[1] ∧
      (motherNext c h)[3] = h[2] ∧ (motherNext c h)[4] = BitVec.ofNat 32 (motherSum c h / 2 ^ 32) :=
  ⟨rfl, rfl, rfl, rfl, rfl⟩

/-- A draw's sum is below the sum of the weights plus one, times `2^32`: every word and the carry are below `2^32`. -/
theorem motherSum_lt (c : Config) (h : History) :
    motherSum c h < (c.mgW0.toNat + c.mgW1.toNat + c.mgW2.toNat + c.mgW3.toNat + 1) * 2 ^ 32 := by
  have word_le : ∀ w x : Word, w.toNat * x.toNat ≤ w.toNat * 2 ^ 32 := fun _ x => Nat.mul_le_mul_left _ x.isLt.le
  have h0 := word_le c.mgW0 h[0]
  have h1 := word_le c.mgW1 h[1]
  have h2 := word_le c.mgW2 h[2]
  have h3 := word_le c.mgW3 h[3]
  have h4 : h[4].toNat < 2 ^ 32 := h[4].isLt
  unfold motherSum
  omega

/-- Settles O21: by `motherSum_lt` the sum's high part is at most the sum of the weights, which R7 keeps below `2^32`, so that neither
half of the sum is cut. -/
theorem motherDrawLosesNothing : Obligations.MotherDrawLosesNothing := by
  unfold Obligations.MotherDrawLosesNothing
  intro c h hwf
  have hfit : c.mgW0.toNat + c.mgW1.toNat + c.mgW2.toNat + c.mgW3.toNat + 1 ≤ 2 ^ 32 := of_decide_eq_true hwf
  have hlt := motherSum_lt c h
  rw [mgDrawLoop_eq_motherNext]
  obtain ⟨h0, h1, h2, h3, h4⟩ := motherNext_getElem c h
  refine ⟨?_, ?_, h1, h2, h3, rfl, ?_⟩
  · change motherSum c h < 2 ^ 64
    omega
  · change _ = motherSum c h
    rw [h0, h4, BitVec.toNat_ofNat, BitVec.toNat_ofNat]
    omega
  · change (motherNext c h)[4].toNat ≤ _
    rw [h4, BitVec.toNat_ofNat]
    omega

/-! ### The range check -/

theorem sval_eq_toInt (v : Word) : sval v = v.toInt := by
  rw [BitVec.toInt_eq_toNat_cond, sval]
  split <;> split <;> omega

/-- Settles O26: `rangeCheck_eq_some` with `sval` read as `BitVec.toInt`; the bounds on the interval follow. -/
theorem rangeCheckAcceptsExactly : Obligations.RangeCheckAcceptsExactly := by
  unfold Obligations.RangeCheckAcceptsExactly
  intro a b
  refine ⟨sval_eq_toInt a, fun n => ?_⟩
  rw [rangeCheck_eq_some, sval_eq_toInt, sval_eq_toInt]
  omega

/-! ### The units' commands -/

theorem ne_stat_of_mtCommand {i : Instr} (h : mtCommand i = true) : i ≠ .stat := by
  rintro rfl
  cases h

theorem ne_stat_of_mgCommand {i : Instr} (h : mgCommand i = true) : i ≠ .stat := by
  rintro rfl
  cases h

theorem mgCommand_of_mtCommand {i : Instr} (h : mtCommand i = true) : mgCommand i = false := by
  cases i <;> trivial

theorem mtCommand_of_mgCommand {i : Instr} (h : mgCommand i = true) : mtCommand i = false := by
  cases i <;> trivial

/-! ### What an executed command leaves -/

/-- Two states that differ in nothing but the latch, the code, the responses and the command in execution: what answering, waiting and
faulting write (`State.respond`, `runCommand`, `State.raiseFault`). -/
structure SameBody (s t : State) : Prop where
  cfg : t.cfg = s.cfg
  seedq : t.seedq = s.seedq
  inputs : t.inputs = s.inputs
  sameMt : SameMt s t
  sameMg : SameMg s t

theorem SameMt.refl (s : State) : SameMt s s := ⟨rfl, rfl, rfl, rfl, rfl⟩

theorem SameMg.refl (s : State) : SameMg s s := ⟨rfl, rfl⟩

theorem SameMt.symm {s t : State} (h : SameMt s t) : SameMt t s :=
  ⟨h.mt.symm, h.index.symm, h.lastInterval.symm, h.rejectionLimit.symm, h.mtSeeded.symm⟩

theorem SameMg.symm {s t : State} (h : SameMg s t) : SameMg t s := ⟨h.hist.symm, h.mgSeeded.symm⟩

theorem SameMt.trans {s t u : State} (h : SameMt s t) (k : SameMt t u) : SameMt s u :=
  ⟨h.mt.trans k.mt, h.index.trans k.index, h.lastInterval.trans k.lastInterval, h.rejectionLimit.trans k.rejectionLimit,
    h.mtSeeded.trans k.mtSeeded⟩

theorem SameMg.trans {s t u : State} (h : SameMg s t) (k : SameMg t u) : SameMg s u :=
  ⟨h.hist.trans k.hist, h.mgSeeded.trans k.mgSeeded⟩

theorem sameBody_respond (s : State) (r : ResponseWord) : SameBody s (s.respond r) :=
  ⟨rfl, rfl, rfl, ⟨rfl, rfl, rfl, rfl, rfl⟩, ⟨rfl, rfl⟩⟩

theorem sameBody_raiseFault (s : State) (c : FaultCode) : SameBody s (s.raiseFault c) :=
  ⟨rfl, rfl, rfl, ⟨rfl, rfl, rfl, rfl, rfl⟩, ⟨rfl, rfl⟩⟩

theorem sameBody_refuseHalted (s : State) : SameBody s s.refuseHalted := sameBody_respond s _

theorem sameBody_executing (s : State) (e : Option Instr) : SameBody s { s with executing := e } :=
  ⟨rfl, rfl, rfl, ⟨rfl, rfl, rfl, rfl, rfl⟩, ⟨rfl, rfl⟩⟩

/-- The state in a result, complete or waiting, has the property. -/
def CommandResult.Leaves (P : State → Prop) : CommandResult → Prop
  | .completes _ t => P t
  | .waits t => P t
  | .faults _ => True

theorem ifSeeded_leaves {P : State → Prop} {r : CommandResult} (b : Bool) (h : r.Leaves P) : (ifSeeded b r).Leaves P := by
  cases b
  · trivial
  · exact h

theorem withInterval_leaves {P : State → Prop} {min max : Word} {f : Nat → CommandResult} (h : ∀ n, (f n).Leaves P) :
    (withInterval min max f).Leaves P := by
  unfold withInterval
  split
  · trivial
  · exact h _

/-- A property of the start and of the state in the result, which does not look at the latch and the answers, holds after the command. -/
theorem exec_leaves {P : State → Prop} {i : Instr} {s t : State} (hbody : ∀ {u v}, SameBody u v → P u → P v) (hs : P s)
    (hr : (commandResult i s).Leaves P) (h : exec i s = .next t) : P t := by
  obtain ⟨-, rfl⟩ | ⟨-, ht⟩ := exec_next h
  · exact hbody (sameBody_respond s _) hs
  · obtain ⟨-, rfl⟩ | ⟨-, v, u, hu, -, rfl⟩ | ⟨-, u, hu, -, rfl⟩ | ⟨-, c, -, rfl⟩ := runCommand_cases ht
    · exact hbody (sameBody_refuseHalted s) hs
    · rw [hu] at hr
      exact hbody (sameBody_respond u _) hr
    · rw [hu] at hr
      exact hbody (sameBody_executing u _) hr
    · exact hbody (sameBody_raiseFault s c) hs

/-- A command leaves the parameters and what the host will still do. -/
theorem exec_cfg_inputs {i : Instr} {s t : State} (h : exec i s = .next t) : t.cfg = s.cfg ∧ t.inputs = s.inputs := by
  refine exec_leaves (P := fun u => u.cfg = s.cfg ∧ u.inputs = s.inputs) ?_ ⟨rfl, rfl⟩ ?_ h
  · exact fun hb hu => ⟨hb.cfg.trans hu.1, hb.inputs.trans hu.2⟩
  · have hf := commandResult_frame i s
    cases hr : commandResult i s with
    | completes v u => rw [hr] at hf; exact ⟨hf.cfg, hf.inputs⟩
    | waits u => rw [hr] at hf; exact ⟨hf.cfg, hf.inputs⟩
    | faults c => trivial

/-- No command ends the halt (60_exceptions.md R248). -/
theorem halt_of_exec {i : Instr} {s t : State} (h : exec i s = .next t) (ht : t.halt = false) : s.halt = false := by
  obtain ⟨-, rfl⟩ | ⟨-, hrun⟩ := exec_next h
  · exact ht
  · obtain ⟨-, rfl⟩ | ⟨hs, -⟩ | ⟨hs, -⟩ | ⟨hs, -⟩ := runCommand_cases hrun
    · exact ht
    · exact hs
    · exact hs
    · exact hs

theorem ifSeeded_waits {b : Bool} {r : CommandResult} {u : State} (h : ifSeeded b r = .waits u) : r = .waits u := by
  cases b
  · cases h
  · exact h

theorem withInterval_waits {min max : Word} {f : Nat → CommandResult} {u : State} (h : withInterval min max f = .waits u) :
    ∃ n, f n = .waits u := by
  unfold withInterval at h
  split at h
  · cases h
  · exact ⟨_, h⟩

/-- No MG command waits. -/
theorem commandResult_mgCommand_ne_waits {i : Instr} (hi : mgCommand i = true) (s u : State) : commandResult i s ≠ .waits u := by
  intro h
  cases i with
  | mgInit seed => cases h
  | mgNextWord => cases ifSeeded_waits h
  | mgNextFloat => cases ifSeeded_waits h
  | mgBiasedRange min max =>
    obtain ⟨n, hn⟩ := withInterval_waits (ifSeeded_waits h)
    cases hn
  | _ => cases hi

/-- An MG command never stays in execution. -/
theorem exec_mgCommand_executing {i : Instr} {s t : State} (hi : mgCommand i = true) (h : exec i s = .next t) :
    t.executing = none := by
  obtain ⟨-, rfl⟩ | ⟨-, ht⟩ := exec_next h
  · rfl
  · obtain ⟨-, rfl⟩ | ⟨-, v, u, -, -, rfl⟩ | ⟨-, u, hu, -, -⟩ | ⟨-, c, -, rfl⟩ := runCommand_cases ht
    · rfl
    · rfl
    · exact absurd hu (commandResult_mgCommand_ne_waits hi s u)
    · rfl

theorem illegalCommand_cfg (s : State) : s.illegalCommand.cfg = s.cfg := by
  unfold State.illegalCommand
  split <;> rfl

/-- Settles O53: no branch of `step_next` writes the parameters. -/
theorem parametersNeverChange : Obligations.ParametersNeverChange := by
  unfold Obligations.ParametersNeverChange
  intro s t h
  obtain ⟨-, -, rfl⟩ | ⟨w, rest, -, -, rfl⟩ | ⟨rest, -, rfl⟩ | ⟨w, rest, -, -, rfl⟩ | ⟨w, rest, i, -, -, -, h⟩ | ⟨i, -, -, h⟩ |
    ⟨i, w, rest, -, -, h⟩ := step_next h
  · rfl
  · rfl
  · rfl
  · exact illegalCommand_cfg _
  · exact (exec_cfg_inputs h).1
  · exact (exec_cfg_inputs h).1
  · exact (exec_cfg_inputs h).1

/-! ### A command and the other unit (O55) -/

theorem sameMg_mtDraw (s : State) : SameMg s (mtDraw s).2 := ⟨by simp, by simp⟩

theorem sameMt_mgDraw (s : State) : SameMt s (mgDraw s).2 := ⟨rfl, rfl, rfl, rfl, rfl⟩

theorem sameMt_mgInit (s : State) (seed : Word) : SameMt s (s.mgInit seed) := by constructor <;> simp

/-- What MT_EXACT_RANGE leaves is what its rejection loop leaves, found word or not. -/
theorem exactRange_leaves {P : State → Prop} {min max : Word} {s : State}
    (h : ∀ n, P (drawBelowLimit drawsPerStep (s.cacheInterval n)).2) : (commandResult (.mtExactRange min max) s).Leaves P := by
  refine ifSeeded_leaves _ (withInterval_leaves fun n => ?_)
  specialize h n
  generalize drawBelowLimit drawsPerStep (s.cacheInterval n) = d at h ⊢
  obtain ⟨_ | w, t⟩ := d
  · exact h
  · exact h

/-- A command that is not one of the MG unit leaves that unit as it was. -/
theorem commandResult_sameMg {i : Instr} (hi : mgCommand i = false) (s : State) : (commandResult i s).Leaves (SameMg s) := by
  cases i with
  | mtInit seed => exact ⟨rfl, rfl⟩
  | mtInitArray length =>
    simp only [commandResult]
    split
    · trivial
    · split <;> exact ⟨rfl, rfl⟩
  | mtNextWord => exact ifSeeded_leaves _ (sameMg_mtDraw s)
  | mtNextFloat => exact ifSeeded_leaves _ (sameMg_mtDraw s)
  | mtBiasedRange min max => exact ifSeeded_leaves _ (withInterval_leaves fun _ => sameMg_mtDraw s)
  | mtExactRange min max => exact exactRange_leaves fun n => ⟨by simp, by simp⟩
  | stat => exact .refl s
  | _ => cases hi

/-- A command that is not one of the MT unit leaves that unit as it was. -/
theorem commandResult_sameMt {i : Instr} (hi : mtCommand i = false) (s : State) : (commandResult i s).Leaves (SameMt s) := by
  cases i with
  | mgInit seed => exact sameMt_mgInit s seed
  | mgNextWord => exact ifSeeded_leaves _ (sameMt_mgDraw s)
  | mgNextFloat => exact ifSeeded_leaves _ (sameMt_mgDraw s)
  | mgBiasedRange min max => exact ifSeeded_leaves _ (withInterval_leaves fun _ => sameMt_mgDraw s)
  | stat => exact .refl s
  | _ => cases hi

/-- Every command but MT_INIT_ARRAY leaves the queue. -/
theorem commandResult_seedq {i : Instr} (hi : ∀ length, i ≠ .mtInitArray length) (s : State) :
    (commandResult i s).Leaves (fun u => u.seedq = s.seedq) := by
  cases i with
  | mtInit seed => rfl
  | mtInitArray length => exact absurd rfl (hi length)
  | mtNextWord => exact ifSeeded_leaves _ (mtDraw_seedq s)
  | mtNextFloat => exact ifSeeded_leaves _ (mtDraw_seedq s)
  | mtBiasedRange min max => exact ifSeeded_leaves _ (withInterval_leaves fun _ => mtDraw_seedq s)
  | mtExactRange min max => exact exactRange_leaves (P := fun u => u.seedq = s.seedq) fun n => by simp
  | mgInit seed => exact mgInit_seedq s seed
  | mgNextWord => exact ifSeeded_leaves _ rfl
  | mgNextFloat => exact ifSeeded_leaves _ rfl
  | mgBiasedRange min max => exact ifSeeded_leaves _ (withInterval_leaves fun _ => rfl)
  | stat => rfl

theorem exec_sameMt {i : Instr} {s t : State} (hi : mtCommand i = false) (h : exec i s = .next t) : SameMt s t :=
  exec_leaves (fun hb hu => hu.trans hb.sameMt) (.refl s) (commandResult_sameMt hi s) h

theorem exec_sameMg {i : Instr} {s t : State} (hi : mgCommand i = false) (h : exec i s = .next t) : SameMg s t :=
  exec_leaves (fun hb hu => hu.trans hb.sameMg) (.refl s) (commandResult_sameMg hi s) h

theorem exec_seedq {i : Instr} {s t : State} (hi : ∀ length, i ≠ .mtInitArray length) (h : exec i s = .next t) :
    t.seedq = s.seedq :=
  exec_leaves (P := fun u => u.seedq = s.seedq) (fun hb hu => hb.seedq.trans hu) rfl (commandResult_seedq hi s) h

/-- Settles O55. -/
theorem commandsKeepToTheirUnit : Obligations.CommandsKeepToTheirUnit := by
  unfold Obligations.CommandsKeepToTheirUnit
  intro i s t h
  obtain ⟨hcfg, hinputs⟩ := exec_cfg_inputs h
  exact ⟨(exec_sameMt · h), (exec_sameMg · h), (exec_seedq · h), hcfg, hinputs⟩

/-! ### Two runs of a command side by side -/

/-- Two results of the same form with the same value or code, whose states are related. -/
def CommandResult.Related (R : State → State → Prop) : CommandResult → CommandResult → Prop
  | .completes v t, .completes v' t' => v = v' ∧ R t t'
  | .waits t, .waits t' => R t t'
  | .faults c, .faults c' => c = c'
  | _, _ => False

theorem ifSeeded_related {R : State → State → Prop} {b b' : Bool} {r r' : CommandResult} (hb : b = b') (h : r.Related R r') :
    (ifSeeded b r).Related R (ifSeeded b' r') := by
  subst hb
  cases b
  · exact rfl
  · exact h

/-- The effect is compared on the intervals that the check accepts. -/
theorem withInterval_related {R : State → State → Prop} {min max : Word} {f f' : Nat → CommandResult}
    (h : ∀ n, rangeCheck min max = some n → (f n).Related R (f' n)) :
    (withInterval min max f).Related R (withInterval min max f') := by
  cases hc : rangeCheck min max with
  | none => rw [withInterval_none hc, withInterval_none hc]; exact rfl
  | some n => rw [withInterval_some hc, withInterval_some hc]; exact h n hc

/-- Both runs of `i` are answered with the same response, or both stay in execution unanswered. -/
def AnsweredAlike (i : Instr) (s s' t t' : State) : Prop :=
  (∃ r, t.responses = s.responses ++ [r] ∧ t'.responses = s'.responses ++ [r] ∧ t.executing = none ∧ t'.executing = none) ∨
  (t.responses = s.responses ∧ t'.responses = s'.responses ∧ t.executing = some i ∧ t'.executing = some i)

/-- A relation that does not look at the latch and the answers, between the starts and between the states in the results, holds after
the command, and the command is answered alike. -/
theorem exec_related {R : State → State → Prop} {i : Instr} {s s' t t' : State}
    (hbody : ∀ {u u' v v'}, SameBody u v → SameBody u' v' → R u u' → R v v') (hi : i ≠ .stat) (hhalt : s.halt = s'.halt)
    (hs : R s s') (hr : (commandResult i s).Related R (commandResult i s')) (h : exec i s = .next t) (h' : exec i s' = .next t') :
    R t t' ∧ t.halt = t'.halt ∧ AnsweredAlike i s s' t t' := by
  obtain ⟨e, -⟩ | ⟨-, ht⟩ := exec_next h
  · exact absurd e hi
  obtain ⟨e, -⟩ | ⟨-, ht'⟩ := exec_next h'
  · exact absurd e hi
  cases hh : s.halt with
  | true =>
    rw [runCommand_halted hh] at ht
    rw [runCommand_halted (hhalt ▸ hh)] at ht'
    subst ht ht'
    exact ⟨hbody (sameBody_refuseHalted s) (sameBody_refuseHalted s') hs, hhalt, .inl ⟨_, rfl, rfl, rfl, rfl⟩⟩
  | false =>
    have hh' : s'.halt = false := hhalt ▸ hh
    have hf := commandResult_frame i s
    have hf' := commandResult_frame i s'
    generalize commandResult i s = r at ht hr hf
    generalize commandResult i s' = r' at ht' hr hf'
    match r, r', hr with
    | .completes v u, .completes _ u', ⟨rfl, hu⟩ =>
      rw [runCommand_completes hh] at ht
      rw [runCommand_completes hh'] at ht'
      subst ht ht'
      refine ⟨hbody (sameBody_respond u _) (sameBody_respond u' _) hu, ?_, .inl ⟨okResponse v, ?_, ?_, rfl, rfl⟩⟩
      · exact hf.halt.trans (hhalt.trans hf'.halt.symm)
      · rw [respond_responses, hf.responses]
      · rw [respond_responses, hf'.responses]
    | .waits u, .waits u', hu =>
      rw [runCommand_waits hh] at ht
      rw [runCommand_waits hh'] at ht'
      subst ht ht'
      refine ⟨hbody (sameBody_executing u _) (sameBody_executing u' _) hu, ?_, .inr ⟨hf.responses, hf'.responses, rfl, rfl⟩⟩
      exact hf.halt.trans (hhalt.trans hf'.halt.symm)
    | .faults c, .faults _, rfl =>
      rw [runCommand_faults hh] at ht
      rw [runCommand_faults hh'] at ht'
      subst ht ht'
      exact ⟨hbody (sameBody_raiseFault s c) (sameBody_raiseFault s' c) hs, rfl, .inl ⟨_, rfl, rfl, rfl, rfl⟩⟩

/-! ### Two runs of an MG command (O56) -/

/-- What an MG command reads and writes: the parameters and the MG unit. -/
structure MgAlike (s t : State) : Prop where
  cfg : s.cfg = t.cfg
  unit : SameMg s t

theorem MgAlike.body {u u' v v' : State} (hb : SameBody u v) (hb' : SameBody u' v') (h : MgAlike u u') : MgAlike v v' :=
  ⟨by rw [hb.cfg, hb'.cfg, h.cfg], hb.sameMg.symm.trans (h.unit.trans hb'.sameMg)⟩

theorem MgAlike.mgDraw {s s' : State} (h : MgAlike s s') : (mgDraw s).1 = (mgDraw s').1 ∧ MgAlike (mgDraw s).2 (mgDraw s').2 := by
  have hnext : motherNext s.cfg s.hist = motherNext s'.cfg s'.hist := by rw [h.cfg, h.unit.hist]
  exact ⟨congrArg (·[0]) hnext, h.cfg, hnext, h.unit.mgSeeded⟩

theorem MgAlike.mgDiscard {s s' : State} (n : Nat) (h : MgAlike s s') : MgAlike (mgDiscard n s) (mgDiscard n s') := by
  induction n generalizing s s' with
  | zero => exact h
  | succ n ih => exact ih h.mgDraw.2

theorem MgAlike.mgInit {s s' : State} (seed : Word) (h : MgAlike s s') : MgAlike (s.mgInit seed) (s'.mgInit seed) := by
  have hseeded : MgAlike { s with hist := motherSeed s.cfg seed } { s' with hist := motherSeed s'.cfg seed } :=
    ⟨h.cfg, by rw [h.cfg], h.unit.mgSeeded⟩
  have hwarm := hseeded.mgDiscard s.cfg.mgWarmup
  refine ⟨by rw [mgInit_cfg, mgInit_cfg, h.cfg], ?_, rfl⟩
  unfold State.mgInit
  rw [← h.cfg] at hwarm ⊢
  exact hwarm.unit.hist

theorem commandResult_mgAlike {i : Instr} {s s' : State} (hi : mgCommand i = true) (h : MgAlike s s') :
    (commandResult i s).Related MgAlike (commandResult i s') := by
  obtain ⟨hword, hdraw⟩ := h.mgDraw
  cases i with
  | mgInit seed => exact ⟨rfl, h.mgInit seed⟩
  | mgNextWord => exact ifSeeded_related h.unit.mgSeeded ⟨congrArg wordResult hword, hdraw⟩
  | mgNextFloat => exact ifSeeded_related h.unit.mgSeeded ⟨congrArg floatConvert hword, hdraw⟩
  | mgBiasedRange min max =>
    exact ifSeeded_related h.unit.mgSeeded (withInterval_related fun n _ => ⟨congrArg (biasedResult min · n) hword, hdraw⟩)
  | _ => cases hi

/-- Settles O56: the two runs are related by `MgAlike`, and no MG command stays in execution. -/
theorem mgCommandsSeeOnlyTheMgUnit : Obligations.MgCommandsSeeOnlyTheMgUnit := by
  unfold Obligations.MgCommandsSeeOnlyTheMgUnit
  intro i s s' t t' hi hcfg hhalt hunit h h'
  have hs : MgAlike s s' := ⟨hcfg, hunit⟩
  obtain ⟨ht, hhalt, hanswer⟩ := exec_related MgAlike.body (ne_stat_of_mgCommand hi) hhalt hs (commandResult_mgAlike hi hs) h h'
  refine ⟨ht.unit, hhalt, ?_⟩
  obtain ⟨r, hr, hr', -⟩ | ⟨-, -, he, -⟩ := hanswer
  · exact ⟨r, hr, hr'⟩
  · rw [exec_mgCommand_executing hi h] at he
    cases he

/-! ### Two runs of an MT command (O57) -/

/-- What an MT command reads and writes beside the latch and the rejection cache. -/
structure SameButCache (s t : State) : Prop where
  cfg : s.cfg = t.cfg
  mt : s.mt = t.mt
  index : s.index = t.index
  mtSeeded : s.mtSeeded = t.mtSeeded
  seedq : s.seedq = t.seedq

/-- Two states with the same rejection cache. -/
structure SameCache (s t : State) : Prop where
  lastInterval : s.lastInterval = t.lastInterval
  rejectionLimit : s.rejectionLimit = t.rejectionLimit

/-- What a run of an MT command from `s` and one from `s'` leave: the same, and the same cache if they started with the same one. -/
structure MtFollows (s s' t t' : State) : Prop where
  unit : SameButCache t t'
  cache : SameCache s s' → SameCache t t'

theorem MtFollows.body {s s' u u' v v' : State} (hb : SameBody u v) (hb' : SameBody u' v') (h : MtFollows s s' u u') :
    MtFollows s s' v v' where
  unit :=
    { cfg := by rw [hb.cfg, hb'.cfg, h.unit.cfg]
      mt := by rw [← hb.sameMt.mt, ← hb'.sameMt.mt, h.unit.mt]
      index := by rw [← hb.sameMt.index, ← hb'.sameMt.index, h.unit.index]
      mtSeeded := by rw [← hb.sameMt.mtSeeded, ← hb'.sameMt.mtSeeded, h.unit.mtSeeded]
      seedq := by rw [hb.seedq, hb'.seedq, h.unit.seedq] }
  cache hs :=
    { lastInterval := by rw [← hb.sameMt.lastInterval, ← hb'.sameMt.lastInterval, (h.cache hs).lastInterval]
      rejectionLimit := by rw [← hb.sameMt.rejectionLimit, ← hb'.sameMt.rejectionLimit, (h.cache hs).rejectionLimit] }

theorem SameButCache.mtReady {s s' : State} (h : SameButCache s s') : SameButCache s.mtReady s'.mtReady := by
  unfold State.mtReady
  rw [h.index]
  split
  · exact h
  · exact ⟨h.cfg, by rw [h.cfg, h.mt], rfl, h.mtSeeded, h.seedq⟩

theorem SameButCache.mtDraw {s s' : State} (h : SameButCache s s') :
    (mtDraw s).1 = (mtDraw s').1 ∧ SameButCache (mtDraw s).2 (mtDraw s').2 := by
  obtain ⟨hcfg, hmt, hindex, hseeded, hseedq⟩ := h.mtReady
  refine ⟨?_, hcfg, hmt, congrArg (· + 1) hindex, hseeded, hseedq⟩
  simp only [Machine.mtDraw, hcfg, hmt, hindex]

theorem SameButCache.cacheInterval {s s' : State} (n : Nat) (h : SameButCache s s') :
    SameButCache (s.cacheInterval n) (s'.cacheInterval n) := by
  constructor <;> simp [h.cfg, h.mt, h.index, h.mtSeeded, h.seedq]

theorem SameCache.cacheInterval {s s' : State} (n : Nat) (h : SameCache s s') :
    SameCache (s.cacheInterval n) (s'.cacheInterval n) := by
  unfold State.cacheInterval
  rw [h.lastInterval]
  split
  · exact h
  · exact ⟨rfl, rfl⟩

/-- With the same limit the rejection loop finds the same word, or none, after the same draws. -/
theorem SameButCache.drawBelowLimit {s s' : State} (n : Nat) (h : SameButCache s s') (hlimit : s.rejectionLimit = s'.rejectionLimit) :
    (drawBelowLimit n s).1 = (drawBelowLimit n s').1 ∧ SameButCache (drawBelowLimit n s).2 (drawBelowLimit n s').2 := by
  induction n generalizing s s' with
  | zero => exact ⟨rfl, h⟩
  | succ n ih =>
    obtain ⟨hword, hdraw⟩ := h.mtDraw
    simp only [Machine.drawBelowLimit, mtDraw_rejectionLimit, hword, hlimit]
    split
    · exact ⟨rfl, hdraw⟩
    · exact ih hdraw (by rw [mtDraw_rejectionLimit, mtDraw_rejectionLimit, hlimit])

/-- Two blocks that, asked for any interval, come to the same limit (R188, R190). -/
def LimitsAgree (s s' : State) : Prop :=
  ∀ n : Nat, 1 ≤ n → (s.cacheInterval n).rejectionLimit = (s'.cacheInterval n).rejectionLimit

theorem SameCache.limitsAgree {s s' : State} (h : SameCache s s') : LimitsAgree s s' :=
  fun n _ => (h.cacheInterval n).rejectionLimit

/-- A consistent cache comes to the interval's own limit, cached or not. -/
theorem cacheInterval_limit {s : State} {n : Nat} (hs : s.CacheConsistent) (hn : 1 ≤ n) :
    (s.cacheInterval n).rejectionLimit = BitVec.ofNat 33 (rejectionLimitOf n) := by
  unfold State.cacheInterval
  split
  case isTrue hcached =>
    have hne : s.lastInterval ≠ 0 := by
      intro h
      rw [h, BitVec.ofNat_eq_ofNat, BitVec.toNat_ofNat, Nat.zero_mod] at hcached
      omega
    rw [hcached, ← (hs hne).2, BitVec.ofNat_toNat, BitVec.setWidth_eq]
  case isFalse => rfl

theorem limitsAgree_of_consistent {s s' : State} (h : s.CacheConsistent) (h' : s'.CacheConsistent) : LimitsAgree s s' :=
  fun n hn => by rw [cacheInterval_limit h hn, cacheInterval_limit h' hn]

theorem rangeCheck_bounds {a b : Word} {n : Nat} (h : rangeCheck a b = some n) : 1 ≤ n ∧ n ≤ 2 ^ 31 := by
  rw [rangeCheck_eq_some] at h
  omega

/-- Two runs of MT_EXACT_RANGE are related when their rejection loops find the same and leave related states. -/
theorem exactRange_related {R : State → State → Prop} {min max : Word} {s s' : State} (hseeded : s.mtSeeded = s'.mtSeeded)
    (h : ∀ n, 1 ≤ n →
      (drawBelowLimit drawsPerStep (s.cacheInterval n)).1 = (drawBelowLimit drawsPerStep (s'.cacheInterval n)).1 ∧
        R (drawBelowLimit drawsPerStep (s.cacheInterval n)).2 (drawBelowLimit drawsPerStep (s'.cacheInterval n)).2) :
    (commandResult (.mtExactRange min max) s).Related R (commandResult (.mtExactRange min max) s') := by
  refine ifSeeded_related hseeded (withInterval_related fun n hn => ?_)
  obtain ⟨hpos, -⟩ := rangeCheck_bounds hn
  obtain ⟨hfound, hloop⟩ := h n hpos
  generalize drawBelowLimit drawsPerStep (s.cacheInterval n) = d at hfound hloop ⊢
  generalize drawBelowLimit drawsPerStep (s'.cacheInterval n) = d' at hfound hloop ⊢
  obtain ⟨found, t⟩ := d
  obtain ⟨_, t'⟩ := d'
  cases hfound
  cases found with
  | none => exact hloop
  | some w => exact ⟨rfl, hloop⟩

theorem commandResult_mtFollows {i : Instr} {s s' : State} (hi : mtCommand i = true) (h : SameButCache s s')
    (hlimits : LimitsAgree s s') : (commandResult i s).Related (MtFollows s s') (commandResult i s') := by
  obtain ⟨hword, hdraw⟩ := h.mtDraw
  have hdraw : MtFollows s s' (mtDraw s).2 (mtDraw s').2 :=
    ⟨hdraw, fun hc => ⟨by simp [hc.lastInterval], by simp [hc.rejectionLimit]⟩⟩
  cases i with
  | mtInit seed =>
    exact ⟨rfl, ⟨h.cfg, by simp [h.cfg], rfl, rfl, h.seedq⟩, fun hc => ⟨rfl, hc.rejectionLimit⟩⟩
  | mtInitArray length =>
    simp only [commandResult, h.seedq]
    cases lengthCheck length with
    | none => exact rfl
    | some n =>
      simp only
      split
      · exact ⟨h, id⟩
      · exact ⟨rfl, ⟨h.cfg, by simp [h.cfg], rfl, rfl, rfl⟩, fun hc => ⟨rfl, hc.rejectionLimit⟩⟩
  | mtNextWord => exact ifSeeded_related h.mtSeeded ⟨congrArg wordResult hword, hdraw⟩
  | mtNextFloat => exact ifSeeded_related h.mtSeeded ⟨congrArg floatConvert hword, hdraw⟩
  | mtBiasedRange min max =>
    exact ifSeeded_related h.mtSeeded (withInterval_related fun n _ => ⟨congrArg (biasedResult min · n) hword, hdraw⟩)
  | mtExactRange min max =>
    refine exactRange_related h.mtSeeded fun n hpos => ?_
    obtain ⟨hfound, hloop⟩ := (h.cacheInterval n).drawBelowLimit drawsPerStep (hlimits n hpos)
    refine ⟨hfound, hloop, fun hc => ?_⟩
    obtain ⟨hlast, hlimit⟩ := hc.cacheInterval n
    exact ⟨by simpa using hlast, by simpa using hlimit⟩
  | _ => cases hi

theorem exec_mtFollows {i : Instr} {s s' t t' : State} (hi : mtCommand i = true) (hhalt : s.halt = s'.halt) (hs : SameButCache s s')
    (hlimits : LimitsAgree s s') (h : exec i s = .next t) (h' : exec i s' = .next t') :
    MtFollows s s' t t' ∧ t.halt = t'.halt ∧ AnsweredAlike i s s' t t' :=
  exec_related MtFollows.body (ne_stat_of_mtCommand hi) hhalt ⟨hs, id⟩ (commandResult_mtFollows hi hs hlimits) h h'

/-- Settles O57: consistent caches come to the same limit, and the cache enters in nothing else. -/
theorem mtCommandsDoNotSeeTheCache : Obligations.MtCommandsDoNotSeeTheCache := by
  unfold Obligations.MtCommandsDoNotSeeTheCache
  intro i s s' t t' hi halike hs hs' h h'
  obtain ⟨hcfg, hmt, hindex, hseeded, hhalt, hseedq⟩ := halike
  obtain ⟨⟨ht, -⟩, hhalt, hanswer⟩ :=
    exec_mtFollows hi hhalt ⟨hcfg, hmt, hindex, hseeded, hseedq⟩ (limitsAgree_of_consistent hs hs') h h'
  refine ⟨⟨ht.cfg, ht.mt, ht.index, ht.mtSeeded, hhalt, ht.seedq⟩, ?_⟩
  obtain ⟨r, hr, hr', he, he'⟩ | ⟨hr, hr', he, he'⟩ := hanswer
  · exact ⟨he.trans he'.symm, [r], hr, hr'⟩
  · exact ⟨he.trans he'.symm, [], by simpa using hr, by simpa using hr'⟩

/-! ### An MT command and an MG command (O59) -/

/-- Settles O59: each command runs the same before and after the other, which leaves its unit (O55); for the MG command that is O56, for
the MT command `exec_mtFollows` with the same cache in both runs. -/
theorem unitsCommute : Obligations.UnitsCommute := by
  unfold Obligations.UnitsCommute
  intro i j s a b c d hi hj ha hb hc hd hbhalt hdhalt haexec
  have hahalt := halt_of_exec hb hbhalt
  have hchalt := halt_of_exec hd hdhalt
  have hshalt := halt_of_exec ha hahalt
  have hj' := mtCommand_of_mgCommand hj
  have hi' := mgCommand_of_mtCommand hi
  have hqueue : ∀ length, j ≠ .mtInitArray length := fun length e => by rw [e] at hj; cases hj
  obtain ⟨hmg, -, q, hcq, hbq⟩ :=
    mgCommandsSeeOnlyTheMgUnit j s a c b hj (exec_cfg_inputs ha).1.symm (hshalt.trans hahalt.symm) (exec_sameMg hi' ha) hc hb
  have hsc := exec_sameMt hj' hc
  have hcache : SameCache s c := ⟨hsc.lastInterval, hsc.rejectionLimit⟩
  obtain ⟨⟨hmt, hcache'⟩, -, hanswer⟩ :=
    exec_mtFollows hi (hshalt.trans hchalt.symm)
      ⟨(exec_cfg_inputs hc).1.symm, hsc.mt, hsc.index, hsc.mtSeeded, (exec_seedq hqueue hc).symm⟩ hcache.limitsAgree ha hd
  have had : SameMt a d :=
    ⟨hmt.mt, hmt.index, (hcache' hcache).lastInterval, (hcache' hcache).rejectionLimit, hmt.mtSeeded⟩
  obtain ⟨r, har, hdr, -⟩ | ⟨-, -, he, -⟩ := hanswer
  · refine ⟨(exec_sameMt hj' hb).symm.trans had, hmg.symm.trans (exec_sameMg hi' hd), (exec_seedq hqueue hb).trans hmt.seedq, r, q,
      ?_, ?_⟩
    · rw [hbq, har, List.append_assoc, List.singleton_append]
    · rw [hdr, hcq, List.append_assoc, List.singleton_append]
  · rw [haexec] at he
    cases he

end Sys2Proof.Machine
end

/-! ## State (10_state.md): the invariant, the cursor, the seeded flags, reset, STAT and the rejection cache

What an MT command leaves of its unit is split once by command (`exec_mtUnit`); the draw, the rejection loop and regeneration are tied to
the pseudocode by `mtDraw_eq`, `drawBelowLimit_of_rejected` and `regenerate_eq_regenerateLoop`. -/

section
namespace Sys2Proof.Machine

/-! ### Response words (30_encoding.md R96) -/

@[simp] theorem responseErr_okResponse (v : BitVec 64) : responseErr (okResponse v) = false := by
  simp only [responseErr, okResponse, BitVec.getLsbD_append, BitVec.getLsbD_zero, Nat.reduceLT, reduceIte, ite_self]

@[simp] theorem responseErr_errResponse (c : BitVec 3) : responseErr (errResponse c) = true := by
  simp only [responseErr, errResponse, BitVec.getLsbD_append, Nat.reduceLT, reduceIte, Nat.reduceSub]
  decide

@[simp] theorem responseCode_okResponse (v : BitVec 64) : responseCode (okResponse v) = 0 := by
  rw [responseCode, okResponse, BitVec.extractLsb'_append_eq_of_le (by decide)]
  decide

@[simp] theorem responseCode_errResponse (c : BitVec 3) : responseCode (errResponse c) = c := by
  rw [responseCode, errResponse, BitVec.extractLsb'_append_eq_of_le (by decide)]
  exact BitVec.extractLsb'_append_eq_right

@[simp] theorem responseValue_errResponse (c : BitVec 3) : responseValue (errResponse c) = 0 :=
  BitVec.extractLsb'_append_eq_right

theorem responseLegal_okResponse (v : BitVec 64) : ResponseLegal (okResponse v) := by simp [ResponseLegal]

theorem responseLegal_errResponse {c : BitVec 3} (h : c ∈ [1, 2, 3, 4, 7]) : ResponseLegal (errResponse c) := by
  simpa [ResponseLegal] using h

/-! ### Reset (10_state.md R60, 70_reset_and_hazards.md R280) -/

/-- A reset boots the block again, with its parameters and the rest of what its host will do. -/
theorem hostReset_eq_boot (s : State) : s.hostReset = .boot s.cfg s.inputs := rfl

/-- A reset is taken whether a command is in execution or not. -/
theorem step_reset {s : State} {rest : List HostInput} (h : s.inputs = .reset :: rest) :
    step s = .next (.boot s.cfg rest) := by
  unfold step nextTurn
  rw [h]
  cases s.executing with
  | none => rfl
  | some i => rfl

/-- Settles O10: the step is `step_reset`, and the fields are those of `State.boot`. -/
theorem resetAtAnyTime : Obligations.ResetAtAnyTime := by
  unfold Obligations.ResetAtAnyTime
  intro s rest h
  exact ⟨_, step_reset h, rfl, rfl, rfl, rfl, rfl, rfl, rfl, rfl, rfl, rfl, rfl⟩

/-! ### STAT (45_system.md R230) -/

/-- A word result fills the low half of the value (30_encoding.md R97). -/
theorem wordResult_eq_append (w : Word) : wordResult w = 0#32 ++ w :=
  BitVec.setWidth_eq_append (by decide)

theorem respond_okResponse (s : State) (v : BitVec 64) : s.respond (okResponse v) = answered s v := rfl

/-- Answering changes no field that the status register shows (10_state.md R51, R52). -/
theorem statusRegister_answered (s : State) (v : BitVec 64) : statusRegister (answered s v) = statusRegister s := rfl

theorem exec_stat (s : State) : exec .stat s = .next (answered s (0#32 ++ statusRegister s)) := by
  rw [exec, execStat, respond_okResponse, wordResult_eq_append]

theorem getLsbD_zero_append_ofBool {n : Nat} (x : BitVec n) (b : Bool) : (x ++ BitVec.ofBool b).getLsbD 0 = b := by
  rw [BitVec.getLsbD_append, if_pos Nat.one_pos, BitVec.getLsbD_ofBool, decide_eq_true rfl, Bool.true_and]

theorem getLsbD_succ_append_ofBool {n : Nat} (x : BitVec n) (b : Bool) (i : Nat) :
    (x ++ BitVec.ofBool b).getLsbD (i + 1) = x.getLsbD i := by
  simp [BitVec.getLsbD_append]

/-- The fields of the status register (10_state.md R52). -/
theorem statusRegister_fields (s : State) :
    let sr := statusRegister s
    sr.getLsbD 0 = s.mtSeeded ∧ sr.getLsbD 1 = s.mgSeeded ∧ sr.getLsbD 2 = s.halt ∧ sr.extractLsb' 3 3 = s.faultCode ∧
      sr.extractLsb' 6 2 = floatModeBits s.cfg.floatMode ∧ sr.extractLsb' 8 24 = 0 := by
  simp only [statusRegister]
  refine ⟨?_, ?_, ?_, ?_, ?_, ?_⟩
  · exact getLsbD_zero_append_ofBool _ _
  · rw [getLsbD_succ_append_ofBool _ _ 0, getLsbD_zero_append_ofBool]
  · rw [getLsbD_succ_append_ofBool _ _ 1, getLsbD_succ_append_ofBool _ _ 0, getLsbD_zero_append_ofBool]
  · simp only [BitVec.extractLsb'_append_eq_of_le, Nat.reduceLeDiff, Nat.reduceSub]
    exact BitVec.extractLsb'_append_eq_right
  · simp only [BitVec.extractLsb'_append_eq_of_le, Nat.reduceLeDiff, Nat.reduceSub]
    exact BitVec.extractLsb'_append_eq_right
  · simp only [BitVec.extractLsb'_append_eq_of_le, Nat.reduceLeDiff, Nat.reduceSub]
    decide

theorem floatModeBits_eq_ite (m : FloatMode) : floatModeBits m = if m = .leIeee then 0 else 1 := by
  cases m <;> rfl

/-- Settles O44. -/
theorem statShowsTheStatusRegister : Obligations.StatShowsTheStatusRegister := by
  unfold Obligations.StatShowsTheStatusRegister
  intro s
  obtain ⟨hmt, hmg, hhalt, hcode, hmode, hzero⟩ := statusRegister_fields s
  refine ⟨statusRegister s, exec_stat s, ?_, hmt, hmg, hhalt, hcode, hmode.trans (floatModeBits_eq_ite _), hzero⟩
  rw [exec_stat, statusRegister_answered]

/-! ### What an MT command leaves of its unit -/

/-- An MT command is its result under the preamble. -/
theorem exec_mtCommand {i : Instr} (hi : mtCommand i = true) (s : State) :
    exec i s = .next (runCommand i s (commandResult i s)) := by
  cases i with
  | mgInit seed => cases hi
  | mgNextWord => cases hi
  | mgNextFloat => cases hi
  | mgBiasedRange min max => cases hi
  | stat => cases hi
  | _ => rfl

/-- What MT_EXACT_RANGE leaves is what its rejection loop leaves on an accepted interval, found word or not. -/
theorem exactRange_leaves_of_bounds {P : State → Prop} {min max : Word} {s : State}
    (h : ∀ n, 1 ≤ n → n ≤ 2 ^ 31 → P (drawBelowLimit drawsPerStep (s.cacheInterval n)).2) :
    (commandResult (.mtExactRange min max) s).Leaves P := by
  refine ifSeeded_leaves _ ?_
  cases hn : rangeCheck min max with
  | none => rw [withInterval_none hn]; trivial
  | some n =>
    obtain ⟨h1, h2⟩ := rangeCheck_bounds hn
    specialize h n h1 h2
    rw [withInterval_some hn]
    generalize drawBelowLimit drawsPerStep (s.cacheInterval n) = d at h ⊢
    obtain ⟨_ | w, t⟩ := d
    · exact h
    · exact h

/-- A property of the MT unit holds after a command when it holds before it and after each of the four effects a
command has on the unit: the two seedings, a draw and the rejection loop. -/
theorem exec_mtUnit {P : State → Prop} {i : Instr} {s t : State} (hunit : ∀ {u v}, SameMt u v → P u → P v) (hs : P s)
    (hinit : ∀ seed, i = .mtInit seed → P (s.mtInit seed))
    (harray : ∀ length n, i = .mtInitArray length → P ({ s with seedq := s.seedq.drop n }.mtInitArray (s.seedq.take n)))
    (hdraw : P (mtDraw s).2)
    (hloop : ∀ n, 1 ≤ n → n ≤ 2 ^ 31 → P (drawBelowLimit drawsPerStep (s.cacheInterval n)).2)
    (h : exec i s = .next t) : P t := by
  cases hi : mtCommand i with
  | false => exact hunit (exec_sameMt hi h) hs
  | true =>
    refine exec_leaves (fun hb hu => hunit hb.sameMt hu) hs ?_ h
    cases i with
    | mtInit seed => exact hinit seed rfl
    | mtInitArray length =>
      simp only [commandResult]
      split
      · trivial
      · split
        · exact hs
        · exact harray length _ rfl
    | mtNextWord => exact ifSeeded_leaves _ hdraw
    | mtNextFloat => exact ifSeeded_leaves _ hdraw
    | mtBiasedRange min max => exact ifSeeded_leaves _ (withInterval_leaves fun _ => hdraw)
    | mtExactRange min max => exact exactRange_leaves_of_bounds hloop
    | _ => cases hi

/-! ### The seeded flags (10_state.md R46) -/

/-- A command leaves `mt_seeded` as it was, or it is a seeding of the MT unit and has set it. -/
theorem exec_mtSeeded {i : Instr} {s t : State} (h : exec i s = .next t) :
    t.mtSeeded = s.mtSeeded ∨ (t.mtSeeded = true ∧ ((∃ seed, i = .mtInit seed) ∨ ∃ length, i = .mtInitArray length)) := by
  refine exec_mtUnit (P := fun u => u.mtSeeded = s.mtSeeded ∨ (u.mtSeeded = true ∧ _))
    (fun hb hu => by rwa [← hb.mtSeeded]) (.inl rfl) ?_ ?_ (.inl (mtDraw_mtSeeded s)) ?_ h
  · exact fun seed hi => .inr ⟨rfl, .inl ⟨seed, hi⟩⟩
  · exact fun length _ hi => .inr ⟨rfl, .inr ⟨length, hi⟩⟩
  · exact fun n _ _ => .inl (by simp)

/-- A command leaves `mg_seeded` as it was, or it is MG_INIT and has set it. -/
theorem exec_mgSeeded {i : Instr} {s t : State} (h : exec i s = .next t) :
    t.mgSeeded = s.mgSeeded ∨ (t.mgSeeded = true ∧ ∃ seed, i = .mgInit seed) := by
  cases hi : mgCommand i with
  | false => exact .inl (exec_sameMg hi h).mgSeeded.symm
  | true =>
    refine exec_leaves (P := fun u => u.mgSeeded = s.mgSeeded ∨ (u.mgSeeded = true ∧ _))
      (fun hb hu => by rwa [← hb.sameMg.mgSeeded]) (.inl rfl) ?_ h
    cases i with
    | mgInit seed => exact .inr ⟨rfl, seed, rfl⟩
    | mgNextWord => exact ifSeeded_leaves _ (.inl rfl)
    | mgNextFloat => exact ifSeeded_leaves _ (.inl rfl)
    | mgBiasedRange min max => exact ifSeeded_leaves _ (withInterval_leaves fun _ => .inl rfl)
    | _ => cases hi

/-- Settles O54: a flag is left or set by a seeding of its unit, so it is never cleared. -/
theorem seededFlagsOnlySetBySeeding : Obligations.SeededFlagsOnlySetBySeeding := by
  unfold Obligations.SeededFlagsOnlySetBySeeding
  intro i s t h
  refine ⟨fun hs => ?_, fun hs => ?_, fun hs ht => ?_, fun hs ht => ?_⟩
  · exact (exec_mtSeeded h).elim (·.trans hs) And.left
  · exact (exec_mgSeeded h).elim (·.trans hs) And.left
  · refine (exec_mtSeeded h).elim (fun he => ?_) And.right
    rw [he, hs] at ht
    cases ht
  · refine (exec_mgSeeded h).elim (fun he => ?_) And.right
    rw [he, hs] at ht
    cases ht

/-! ### Regeneration in place (41_mt_draw.md R141, R142) -/

/-- Word `i` of a list of words. -/
def wordAt (l : List Word) (i : Nat) : Word := l[i]?.getD 0

theorem mtWord_eq_wordAt (mt : Block) (i : Nat) : mtWord mt i = wordAt mt.words i := rfl

/-- R142's recurrence: `new` is what R141 makes of `old`, word by word, when a read of an index already passed sees the new word. -/
def RegeneratedFrom (c : Config) (old new : List Word) : Prop :=
  ∀ i < 624, wordAt new i =
    twist c (wordAt old i) (if i < 623 then wordAt old (i + 1) else wordAt new 0)
      (if i < 227 then wordAt old (i + 397) else wordAt new (i - 227))

theorem wordAt_append (l m : List Word) (i : Nat) :
    wordAt (l ++ m) i = if i < l.length then wordAt l i else wordAt m (i - l.length) := by
  unfold wordAt
  rw [List.getElem?_append]
  split <;> rfl

theorem wordAt_take {l : List Word} {n i : Nat} (h : i < n) : wordAt (l.take n) i = wordAt l i := by
  rw [wordAt, List.getElem?_take_of_lt h, wordAt]

theorem wordAt_drop (l : List Word) (n i : Nat) : wordAt (l.drop n) i = wordAt l (n + i) := by
  rw [wordAt, List.getElem?_drop, wordAt]

theorem drop_eq_wordAt_cons {l : List Word} {i : Nat} (h : i < l.length) : l.drop i = wordAt l i :: l.drop (i + 1) := by
  rw [List.drop_eq_getElem_cons h, wordAt, List.getElem?_eq_getElem h, Option.getD_some]

theorem take_succ_eq_append_wordAt {l : List Word} {i : Nat} (h : i < l.length) : l.take (i + 1) = l.take i ++ [wordAt l i] := by
  rw [List.take_succ_eq_append_getElem h, wordAt, List.getElem?_eq_getElem h, Option.getD_some]

/-- The register after the loop's first `i` turns: new words up to `i`, old ones from there on. -/
def mixedWords (old new : List Word) (i : Nat) : List Word := new.take i ++ old.drop i

section
variable {old new : List Word} {i j : Nat}

theorem mixedWords_before (hnew : new.length = 624) (hi : i ≤ 624) (h : j < i) : wordAt (mixedWords old new i) j = wordAt new j := by
  rw [mixedWords, wordAt_append, List.length_take, if_pos (by omega), wordAt_take h]

theorem mixedWords_from (hnew : new.length = 624) (hi : i ≤ 624) (h : i ≤ j) : wordAt (mixedWords old new i) j = wordAt old j := by
  rw [mixedWords, wordAt_append, List.length_take, if_neg (by omega), wordAt_drop]
  congr 1
  omega

theorem mixedWords_set (hold : old.length = 624) (hnew : new.length = 624) (hi : i < 624) :
    (mixedWords old new i).set i (wordAt new i) = mixedWords old new (i + 1) := by
  have hlen : (new.take i).length = i := by rw [List.length_take]; omega
  rw [mixedWords, List.set_append_right _ _ hlen.le, hlen, Nat.sub_self, drop_eq_wordAt_cons (hold ▸ hi), List.set_cons_zero,
    mixedWords, take_succ_eq_append_wordAt (hnew ▸ hi), List.append_assoc, List.singleton_append]

end

/-- One turn of R141's loop. -/
def regenerateTurn (c : Config) (i : Nat) (mt : Block) : Block :=
  mtSet mt i (twist c (mtWord mt i) (mtWord mt ((i + 1) % 624)) (mtWord mt ((i + 397) % 624)))

theorem regenerateLoop_eq (c : Config) (mt : Block) : regenerateLoop c mt = forAscending (regenerateTurn c) 624 0 mt := rfl

/-- A turn on a register whose words before `i` are new makes word `i` new. -/
theorem regenerateTurn_mixedWords {c : Config} {old new : List Word} (hold : old.length = 624) (hnew : new.length = 624)
    (hrec : RegeneratedFrom c old new) {i : Nat} (hi : i < 624) {mt : Block} (hmt : mt.words = mixedWords old new i) :
    (regenerateTurn c i mt).words = mixedWords old new (i + 1) := by
  have hword : ∀ j, mtWord mt j = wordAt (mixedWords old new i) j := fun j => by rw [mtWord_eq_wordAt, hmt]
  have hcur : mtWord mt i = wordAt old i := by rw [hword, mixedWords_from hnew hi.le le_rfl]
  have hnext : mtWord mt ((i + 1) % 624) = if i < 623 then wordAt old (i + 1) else wordAt new 0 := by
    rw [hword]
    split
    · rw [Nat.mod_eq_of_lt (by omega), mixedWords_from hnew hi.le (by omega)]
    · rw [show (i + 1) % 624 = 0 by omega, mixedWords_before hnew hi.le (by omega)]
  have hfar : mtWord mt ((i + 397) % 624) = if i < 227 then wordAt old (i + 397) else wordAt new (i - 227) := by
    rw [hword]
    split
    · rw [Nat.mod_eq_of_lt (by omega), mixedWords_from hnew hi.le (by omega)]
    · rw [show (i + 397) % 624 = i - 227 by omega, mixedWords_before hnew hi.le (by omega)]
  rw [regenerateTurn, hcur, hnext, hfar, ← hrec i hi]
  exact (congrArg (List.set · i (wordAt new i)) hmt).trans (mixedWords_set hold hnew hi)

/-- The rest of the loop, from turn `i` on, makes the rest of the register new. -/
theorem forAscending_regenerateTurn {c : Config} {old new : List Word} (hold : old.length = 624) (hnew : new.length = 624)
    (hrec : RegeneratedFrom c old new) (n i : Nat) (hi : i + n = 624) {mt : Block} (hmt : mt.words = mixedWords old new i) :
    (forAscending (regenerateTurn c) n i mt).words = mixedWords old new 624 := by
  induction n generalizing i mt with
  | zero =>
    obtain rfl : i = 624 := hi
    exact hmt
  | succ n ih => exact ih (i + 1) (by omega) (regenerateTurn_mixedWords hold hnew hrec (by omega) hmt)

/-- The recurrence of R142 determines what the loop of R141 leaves. -/
theorem regenerateLoop_words {c : Config} {mt : Block} {new : List Word} (hnew : new.length = 624)
    (hrec : RegeneratedFrom c mt.words new) : (regenerateLoop c mt).words = new := by
  rw [regenerateLoop_eq, forAscending_regenerateTurn mt.size hnew hrec 624 0 rfl rfl, mixedWords,
    List.take_of_length_le hnew.le, List.drop_of_length_le mt.size.le, List.append_nil]

/-- Each word of a row is twisted from its neighbours and the word of the second list at the same place. -/
theorem wordAt_twistRow {c : Config} {words fars : List Word} {i : Nat} (hw : i + 1 < words.length) (hf : i < fars.length) :
    wordAt (twistRow c words fars) i = twist c (wordAt words i) (wordAt words (i + 1)) (wordAt fars i) := by
  fun_induction twistRow c words fars generalizing i with
  | case1 cur next rest far fars ih =>
    cases i with
    | zero => rfl
    | succ i => exact ih (Nat.lt_of_succ_lt_succ hw) (Nat.lt_of_succ_lt_succ hf)
  | case2 words fars h =>
    match words, fars, hw, hf with
    | cur :: next :: rest, far :: fars, _, _ => exact absurd rfl (h cur next rest far fars rfl)

/-- Words 0..226 of `regenerateWords`. -/
def twistRun1 (c : Config) (old : List Word) : List Word := twistRow c old (old.drop 397)

/-- Words 227..453 of `regenerateWords`. -/
def twistRun2 (c : Config) (old : List Word) : List Word := twistRow c (old.drop 227) (twistRun1 c old)

/-- Words 454..623 of `regenerateWords`. -/
def twistRun3 (c : Config) (old : List Word) : List Word :=
  twistRow c (old.drop 454 ++ (twistRun1 c old).take 1) (twistRun2 c old)

theorem regenerateWords_eq (c : Config) (old : List Word) :
    regenerateWords c old = twistRun1 c old ++ twistRun2 c old ++ twistRun3 c old := rfl

section
variable {c : Config} {old : List Word} {i : Nat} (hold : old.length = 624)
include hold

theorem length_twistRun1 : (twistRun1 c old).length = 227 := by simp [twistRun1, length_twistRow, hold]

theorem length_twistRun2 : (twistRun2 c old).length = 227 := by
  simp [twistRun2, length_twistRow, length_twistRun1 hold, hold]

theorem regenerateWords_at_run1 (hi : i < 227) : wordAt (regenerateWords c old) i = wordAt (twistRun1 c old) i := by
  have h1 : (twistRun1 c old).length = 227 := length_twistRun1 hold
  rw [regenerateWords_eq, List.append_assoc, wordAt_append, if_pos (by omega)]

theorem regenerateWords_at_run2 (hi : i < 227) : wordAt (regenerateWords c old) (227 + i) = wordAt (twistRun2 c old) i := by
  have h1 : (twistRun1 c old).length = 227 := length_twistRun1 hold
  have h2 : (twistRun2 c old).length = 227 := length_twistRun2 hold
  rw [regenerateWords_eq, List.append_assoc, wordAt_append, if_neg (by omega), wordAt_append, if_pos (by omega), h1,
    Nat.add_sub_cancel_left]

theorem regenerateWords_at_run3 : wordAt (regenerateWords c old) (454 + i) = wordAt (twistRun3 c old) i := by
  have h12 : (twistRun1 c old ++ twistRun2 c old).length = 454 := by
    rw [List.length_append, length_twistRun1 hold, length_twistRun2 hold]
  rw [regenerateWords_eq, wordAt_append, if_neg (by omega), h12, Nat.add_sub_cancel_left]

theorem wordAt_twistRun1 (hi : i < 227) :
    wordAt (twistRun1 c old) i = twist c (wordAt old i) (wordAt old (i + 1)) (wordAt old (i + 397)) := by
  rw [twistRun1, wordAt_twistRow (by omega) (by rw [List.length_drop]; omega), wordAt_drop, Nat.add_comm 397]

theorem wordAt_twistRun2 (hi : i < 227) :
    wordAt (twistRun2 c old) i = twist c (wordAt old (227 + i)) (wordAt old (227 + i + 1)) (wordAt (twistRun1 c old) i) := by
  rw [twistRun2, wordAt_twistRow (by rw [List.length_drop]; omega) (by rw [length_twistRun1 hold]; omega), wordAt_drop,
    wordAt_drop, Nat.add_assoc]

theorem wordAt_twistRun3 (hi : i < 170) :
    wordAt (twistRun3 c old) i =
      twist c (wordAt old (454 + i)) (if i < 169 then wordAt old (454 + i + 1) else wordAt (twistRun1 c old) 0)
        (wordAt (twistRun2 c old) i) := by
  have hdrop : (old.drop 454).length = 170 := by rw [List.length_drop, hold]
  have hlen : (old.drop 454 ++ (twistRun1 c old).take 1).length = 171 := by
    rw [List.length_append, hdrop, List.length_take, length_twistRun1 hold]
    rfl
  rw [twistRun3, wordAt_twistRow (by omega) (by rw [length_twistRun2 hold]; omega)]
  simp only [wordAt_append, hdrop, wordAt_drop]
  rw [if_pos hi]
  split
  · rw [if_pos (by omega), Nat.add_assoc]
  · rw [if_neg (by omega), wordAt_take (by omega), show i + 1 - 170 = 0 by omega]

/-- The one-pass form of regeneration meets R142's recurrence. -/
theorem regeneratedFrom_regenerateWords : RegeneratedFrom c old (regenerateWords c old) := by
  intro i hi
  obtain h | ⟨j, rfl, h⟩ | ⟨j, rfl, h⟩ : i < 227 ∨ (∃ j, i = 227 + j ∧ j < 227) ∨ ∃ j, i = 454 + j ∧ j < 170 := by
    by_cases h1 : i < 227
    · exact .inl h1
    · by_cases h2 : i < 454
      · exact .inr (.inl ⟨i - 227, by omega, by omega⟩)
      · exact .inr (.inr ⟨i - 454, by omega, by omega⟩)
  · rw [regenerateWords_at_run1 hold h, wordAt_twistRun1 hold h, if_pos (by omega), if_pos h]
  · rw [regenerateWords_at_run2 hold h, wordAt_twistRun2 hold h, if_pos (by omega), if_neg (by omega), Nat.add_sub_cancel_left,
      regenerateWords_at_run1 hold h]
  · rw [regenerateWords_at_run3 hold, wordAt_twistRun3 hold h, if_neg (show ¬ 454 + j < 227 by omega),
      show 454 + j - 227 = 227 + j by omega, regenerateWords_at_run2 hold (by omega), regenerateWords_at_run1 hold (by omega)]
    simp only [show 454 + j < 623 ↔ j < 169 by omega]

end

theorem block_ext {a b : Block} (h : a.words = b.words) : a = b := by
  cases a
  cases b
  cases h
  rfl

/-- Regeneration is the loop of R141. -/
theorem regenerate_eq_regenerateLoop (c : Config) (mt : Block) : regenerate c mt = regenerateLoop c mt :=
  block_ext (regenerateLoop_words (length_regenerateWords c _ mt.size) (regeneratedFrom_regenerateWords mt.size)).symm

/-! ### The draw of the pseudocode (41_mt_draw.md R144) -/

theorem word_eq_mtWord (mt : Block) {i : Nat} (h : i < 624) : mt.word i h = mtWord mt i := by
  rw [mtWord, List.getElem?_eq_getElem (mt.size.symm ▸ h), Option.getD_some, Block.word]

/-- The machine's draw is the pseudocode's. -/
theorem mtDraw_eq (s : State) : mtDraw s = (mtDrawnWord s, afterMtDraw s) := by
  simp only [mtDraw, word_eq_mtWord, mtDrawnWord, afterMtDraw, mtDrawLoop, State.mtReady]
  by_cases h : s.index.toNat < 624
  · simp only [if_pos h, if_neg (not_le.mpr h)]
  · simp only [if_neg h, if_pos (not_lt.mp h), regenerate_eq_regenerateLoop]

/-- A loop that rejects `k` words and then accepts one has made `k + 1` draws. -/
theorem drawBelowLimit_of_rejected {k n : Nat} {s : State} (hk : k < n)
    (hrej : ∀ j < k, s.rejectionLimit.toNat ≤ (mtDrawnWord (afterMtDraws j s)).toNat)
    (hacc : (mtDrawnWord (afterMtDraws k s)).toNat < s.rejectionLimit.toNat) :
    drawBelowLimit n s = (some (mtDrawnWord (afterMtDraws k s)), afterMtDraws (k + 1) s) := by
  induction n generalizing k s with
  | zero => cases hk
  | succ n ih =>
    simp only [drawBelowLimit, mtDraw_eq]
    cases k with
    | zero => exact if_pos hacc
    | succ k =>
      refine (if_neg (not_lt.mpr (hrej 0 (Nat.succ_pos k)))).trans ?_
      exact ih (Nat.lt_of_succ_lt_succ hk) (fun j hj => hrej (j + 1) (Nat.succ_lt_succ hj)) hacc

/-! ### The cursor (10_state.md R34) -/

/-- A draw leaves the cursor in 1..624, from wherever it stood. -/
theorem index_mtDraw_bounds (s : State) : 1 ≤ (mtDraw s).2.index.toNat ∧ (mtDraw s).2.index.toNat ≤ 624 := by
  have h := mtReady_index_lt s
  rw [mtDraw_index]
  bv_omega

theorem indexInRange_mtDraw (s : State) : (mtDraw s).2.IndexInRange := (index_mtDraw_bounds s).2

theorem indexInRange_drawBelowLimit {s : State} (n : Nat) (h : s.IndexInRange) : (drawBelowLimit n s).2.IndexInRange := by
  induction n generalizing s with
  | zero => exact h
  | succ n ih =>
    unfold drawBelowLimit
    split
    · exact indexInRange_mtDraw s
    · exact ih (indexInRange_mtDraw s)

theorem SameMt.indexInRange {s t : State} (hb : SameMt s t) (h : s.IndexInRange) : t.IndexInRange := by
  rwa [State.IndexInRange, ← hb.index]

/-- No command takes the cursor out of 0..624. -/
theorem exec_indexInRange {i : Instr} {s t : State} (hs : s.IndexInRange) (h : exec i s = .next t) : t.IndexInRange := by
  refine exec_mtUnit (P := State.IndexInRange) SameMt.indexInRange hs ?_ ?_ (indexInRange_mtDraw s) ?_ h
  · exact fun _ _ => Nat.le_refl 624
  · exact fun _ _ _ => Nat.le_refl 624
  · exact fun n _ _ => indexInRange_drawBelowLimit _ (by simpa [State.IndexInRange] using hs)

theorem exec_mtInit (seed : Word) {s : State} (hs : s.halt = false) :
    exec (.mtInit seed) s = .next ((s.mtInit seed).respond (okResponse noResult)) := by
  rw [exec_mtCommand rfl, commandResult, runCommand_completes hs]

/-- An MT_INIT_ARRAY that is answered by a block that is not halted has seeded: it was not refused, has not faulted and does not wait. -/
theorem exec_mtInitArray {length : Word} {s t : State} (h : exec (.mtInitArray length) s = .next t) (ht : t.halt = false)
    (he : t.executing = none) : ∃ n, lengthCheck length = some n ∧ n ≤ s.seedq.length ∧
      t = ({ s with seedq := s.seedq.drop n }.mtInitArray (s.seedq.take n)).respond (okResponse noResult) := by
  have hs := halt_of_exec h ht
  obtain ⟨e, -⟩ | ⟨-, hrun⟩ := exec_next h
  · cases e
  simp only [commandResult] at hrun
  split at hrun
  case h_1 =>
    rw [hrun, runCommand_faults hs] at ht
    cases ht
  case h_2 n hn =>
    split at hrun
    case isTrue =>
      rw [hrun, runCommand_waits hs] at he
      cases he
    case isFalse hlen => exact ⟨n, hn, not_lt.mp hlen, hrun.trans (runCommand_completes hs _ _ _)⟩

/-- Settles O52: `exec_indexInRange` for the commands, and the draw of the pseudocode is the machine's. -/
theorem cursorStaysInRange : Obligations.CursorStaysInRange := by
  unfold Obligations.CursorStaysInRange
  refine ⟨fun _ _ => rfl, fun s t seed hs h => ?_, fun s t length h ht he => ?_, fun s hs => ?_, fun s => ?_,
    fun i s t hs h => exec_indexInRange hs h⟩
  · rw [exec_mtInit seed hs] at h
    cases h
    rfl
  · obtain ⟨n, -, -, rfl⟩ := exec_mtInitArray h ht he
    rfl
  · unfold State.IndexInRange at hs
    bv_omega
  · have h := index_mtDraw_bounds s
    rw [mtDraw_eq] at h
    exact h.symm

/-! ### The rejection cache and its limit (10_state.md R38, R39) -/

/-- The cache holds nothing or the interval's own limit, and the limit is a legal value. -/
structure CacheSound (s : State) : Prop where
  consistent : s.CacheConsistent
  legal : s.LimitLegal

theorem rejectionLimitOf_le (n : Nat) : rejectionLimitOf n ≤ 2 ^ 32 := Nat.div_mul_le_self _ _

theorem rejectionLimitOf_pos {n : Nat} (h1 : 1 ≤ n) (h2 : n ≤ 2 ^ 32) : 1 ≤ rejectionLimitOf n :=
  Nat.mul_pos (Nat.div_pos h2 h1) h1

/-- A seeding empties the cache and leaves the limit (40_mt_seeding.md R121, R124). -/
theorem CacheSound.emptied {s t : State} (hs : CacheSound s) (hl : t.lastInterval = 0)
    (hr : t.rejectionLimit = s.rejectionLimit) : CacheSound t :=
  ⟨fun h => absurd hl h, by rw [State.LimitLegal, hr]; exact hs.legal⟩

theorem CacheSound.congr {s t : State} (hs : CacheSound s) (hl : t.lastInterval = s.lastInterval)
    (hr : t.rejectionLimit = s.rejectionLimit) : CacheSound t := by
  obtain ⟨hc, hlegal⟩ := hs
  constructor
  · rwa [State.CacheConsistent, hl, hr]
  · rwa [State.LimitLegal, hr]

theorem SameMt.cacheSound {s t : State} (hb : SameMt s t) (hs : CacheSound s) : CacheSound t :=
  hs.congr hb.lastInterval.symm hb.rejectionLimit.symm

theorem CacheSound.mtDraw {s : State} (hs : CacheSound s) : CacheSound (mtDraw s).2 := hs.congr (by simp) (by simp)

/-- The state with the cache of the interval `n` (10_state.md R37, R38). -/
def State.withCache (s : State) (n : Nat) : State :=
  { s with lastInterval := BitVec.ofNat 32 n, rejectionLimit := BitVec.ofNat 33 (rejectionLimitOf n) }

/-- A consistent cache comes to hold the interval and its limit, cached before or not. -/
theorem cacheInterval_eq_withCache {s : State} {n : Nat} (hs : s.CacheConsistent) (hn : 1 ≤ n) :
    s.cacheInterval n = s.withCache n := by
  have hlimit := cacheInterval_limit hs hn
  unfold State.cacheInterval at hlimit ⊢
  split
  case isTrue hcached =>
    rw [if_pos hcached] at hlimit
    rw [State.withCache, ← hlimit, hcached, BitVec.ofNat_toNat, BitVec.setWidth_eq]
  case isFalse => rfl

theorem withCache_lastInterval {s : State} {n : Nat} (h : n ≤ 2 ^ 31) : (s.withCache n).lastInterval.toNat = n := by
  rw [State.withCache, BitVec.toNat_ofNat, Nat.mod_eq_of_lt (by omega)]

theorem withCache_rejectionLimit (s : State) (n : Nat) : (s.withCache n).rejectionLimit.toNat = rejectionLimitOf n := by
  have h := rejectionLimitOf_le n
  rw [State.withCache, BitVec.toNat_ofNat, Nat.mod_eq_of_lt (by omega)]

/-- Caching an interval that the range check accepts (43_range_mapper.md R180, R190). -/
theorem CacheSound.cacheInterval {s : State} (hs : CacheSound s) {n : Nat} (h1 : 1 ≤ n) (h2 : n ≤ 2 ^ 31) :
    CacheSound (s.cacheInterval n) := by
  rw [cacheInterval_eq_withCache hs.consistent h1]
  constructor
  · intro _
    rw [withCache_lastInterval h2, withCache_rejectionLimit]
    exact ⟨h2, rfl⟩
  · rw [State.LimitLegal, withCache_rejectionLimit]
    exact ⟨rejectionLimitOf_pos h1 (by omega), rejectionLimitOf_le n⟩

theorem exec_cacheSound {i : Instr} {s t : State} (hs : CacheSound s) (h : exec i s = .next t) : CacheSound t := by
  refine exec_mtUnit SameMt.cacheSound hs ?_ ?_ hs.mtDraw ?_ h
  · exact fun _ _ => hs.emptied rfl rfl
  · exact fun _ _ _ => hs.emptied rfl rfl
  · exact fun n h1 h2 => (hs.cacheInterval h1 h2).congr (by simp) (by simp)

/-! ### The latch and the answers (10_state.md R48, 30_encoding.md R96, 60_exceptions.md R244) -/

/-- The part of the invariant that answering, waiting and faulting can touch. -/
structure AnswersSound (s : State) : Prop where
  latch : s.FaultLatchConsistent
  idle : s.HaltedIdle
  responses : ∀ r ∈ s.responses, ResponseLegal r

theorem responses_append_legal {rs : List ResponseWord} {r : ResponseWord} (h : ∀ q ∈ rs, ResponseLegal q) (hr : ResponseLegal r) :
    ∀ q ∈ rs ++ [r], ResponseLegal q := by
  simpa [or_imp, forall_and] using And.intro h hr

theorem AnswersSound.respond {s : State} (hs : AnswersSound s) {r : ResponseWord} (hr : ResponseLegal r) :
    AnswersSound (s.respond r) :=
  ⟨hs.latch, fun _ => rfl, responses_append_legal hs.responses hr⟩

theorem AnswersSound.refuseHalted {s : State} (hs : AnswersSound s) : AnswersSound s.refuseHalted :=
  hs.respond (responseLegal_errResponse (by decide))

theorem faultCode_bits_mem (c : FaultCode) : c.bits ∈ [1, 2, 3, 4] := by cases c <;> decide

theorem AnswersSound.raiseFault {s : State} (hs : AnswersSound s) (c : FaultCode) : AnswersSound (s.raiseFault c) := by
  have hc := faultCode_bits_mem c
  exact ⟨hc, fun _ => rfl, responses_append_legal hs.responses (responseLegal_errResponse (List.mem_append_left [7] hc))⟩

/-- The effect of a command of a block that is not halted; the command may go on. -/
theorem AnswersSound.effect {s u : State} (hs : AnswersSound s) (hh : s.halt = false) (hf : EffectFrame s u) : AnswersSound u where
  latch := by
    rw [State.FaultLatchConsistent, hf.halt, hf.faultCode]
    exact hs.latch
  idle h := by
    rw [hf.halt, hh] at h
    cases h
  responses := by
    rw [hf.responses]
    exact hs.responses

theorem exec_answersSound {i : Instr} {s t : State} (hs : AnswersSound s) (h : exec i s = .next t) : AnswersSound t := by
  obtain ⟨-, rfl⟩ | ⟨-, ht⟩ := exec_next h
  · exact hs.respond (responseLegal_okResponse _)
  · obtain ⟨-, rfl⟩ | ⟨hh, v, u, -, hf, rfl⟩ | ⟨hh, u, -, hf, rfl⟩ | ⟨-, c, -, rfl⟩ := runCommand_cases ht
    · exact hs.refuseHalted
    · exact (hs.effect hh hf).respond (responseLegal_okResponse v)
    · exact hs.effect hh ⟨hf.cfg, hf.halt, hf.faultCode, hf.responses, hf.inputs⟩
    · exact hs.raiseFault c

/-! ### The invariant -/

theorem inv_iff (s : State) : s.Inv ↔ s.IndexInRange ∧ CacheSound s ∧ AnswersSound s :=
  ⟨fun h => ⟨h.index, ⟨h.cache, h.limit⟩, h.latch, h.idle, h.responses⟩,
    fun ⟨hi, hc, ha⟩ => ⟨hi, hc.consistent, hc.legal, ha.latch, ha.idle, ha.responses⟩⟩

/-- Settles O50: each part is read off `State.boot`. -/
theorem invariantAfterReset : Obligations.InvariantAfterReset := by
  unfold Obligations.InvariantAfterReset
  intro c inputs
  exact
    { index := Nat.le_refl 624
      cache := fun h => absurd rfl h
      limit := (by decide : State.reset.LimitLegal)
      latch := rfl
      idle := fun h => absurd h Bool.false_ne_true
      responses := fun _ h => absurd h List.not_mem_nil }

/-- Every command keeps the invariant. -/
theorem exec_inv {i : Instr} {s t : State} (hs : s.Inv) (h : exec i s = .next t) : t.Inv := by
  obtain ⟨hi, hc, ha⟩ := (inv_iff s).mp hs
  exact (inv_iff t).mpr ⟨exec_indexInRange hi h, exec_cacheSound hc h, exec_answersSound ha h⟩

/-- A reserved opcode is refused or faults. -/
theorem illegalCommand_inv {s : State} (hs : s.Inv) : s.illegalCommand.Inv := by
  obtain ⟨hi, hc, ha⟩ := (inv_iff s).mp hs
  unfold State.illegalCommand
  split
  · exact (inv_iff _).mpr ⟨hi, (sameBody_refuseHalted s).sameMt.cacheSound hc, ha.refuseHalted⟩
  · exact (inv_iff _).mpr ⟨hi, (sameBody_raiseFault s _).sameMt.cacheSound hc, ha.raiseFault _⟩

/-- What the host still presents and what stands in the seed queue is not looked at. -/
theorem inv_host {s : State} (hs : s.Inv) (inputs : List HostInput) (seedq : List Word) :
    State.Inv { s with inputs := inputs, seedq := seedq } :=
  ⟨hs.index, hs.cache, hs.limit, hs.latch, hs.idle, hs.responses⟩

/-- Settles O51: of the branches of `step_next`, one is `invariantAfterReset`, those that execute a command are `exec_inv`, and the
others move the host's side on or meet a reserved opcode. -/
theorem everyStepKeepsTheInvariant : Obligations.EveryStepKeepsTheInvariant := by
  unfold Obligations.EveryStepKeepsTheInvariant
  intro s t hs h
  obtain ⟨-, -, rfl⟩ | ⟨w, rest, -, -, rfl⟩ | ⟨rest, -, rfl⟩ | ⟨w, rest, -, -, rfl⟩ | ⟨w, rest, i, -, -, -, h⟩ | ⟨i, -, -, h⟩ |
    ⟨i, w, rest, -, -, h⟩ := step_next h
  · exact hs
  · exact inv_host hs rest _
  · rw [hostReset_eq_boot]
    exact invariantAfterReset _ _
  · exact illegalCommand_inv (inv_host hs rest _)
  · exact exec_inv (inv_host hs rest _) h
  · exact exec_inv hs h
  · exact exec_inv (inv_host hs rest _) h

/-! ### MT_EXACT_RANGE (43_range_mapper.md R190, R191) -/

/-- Draws do not look at the cache. -/
theorem afterMtDraws_withCache (k n : Nat) (s : State) : afterMtDraws k (s.withCache n) = (afterMtDraws k s).withCache n := by
  induction k generalizing s with
  | zero => rfl
  | succ k ih => exact ih (afterMtDraw s)

theorem mtDrawnWord_withCache (n : Nat) (s : State) : mtDrawnWord (s.withCache n) = mtDrawnWord s := rfl

/-- The loop of R190 on the cached interval, when the first word below its limit is the one after `k` rejected words. -/
theorem drawBelowLimit_cacheInterval {n k : Nat} {s : State} (hs : s.CacheConsistent) (hn : 1 ≤ n) (hk : k < drawsPerStep)
    (hrej : ∀ j < k, rejectionLimitOf n ≤ (mtDrawnWord (afterMtDraws j s)).toNat)
    (hacc : (mtDrawnWord (afterMtDraws k s)).toNat < rejectionLimitOf n) :
    drawBelowLimit drawsPerStep (s.cacheInterval n) =
      (some (mtDrawnWord (afterMtDraws k s)), (afterMtDraws (k + 1) s).withCache n) := by
  have hword : ∀ j, mtDrawnWord (afterMtDraws j (s.withCache n)) = mtDrawnWord (afterMtDraws j s) := fun j => by
    rw [afterMtDraws_withCache, mtDrawnWord_withCache]
  rw [cacheInterval_eq_withCache hs hn, drawBelowLimit_of_rejected hk, hword, afterMtDraws_withCache]
  · simpa only [hword, withCache_rejectionLimit] using hrej
  · rwa [hword, withCache_rejectionLimit]

/-- An accepted range hands its interval to the effect (R180). -/
theorem rangeCheck_of_accepted {min max : Word} (h : min.toInt ≤ max.toInt) (hw : max.toInt - min.toInt < 2 ^ 31) :
    rangeCheck min max = some (max.toInt - min.toInt + 1).toNat := by
  rw [rangeCheck_eq_some, sval_eq_toInt, sval_eq_toInt]
  omega

/-- A sum that stays at or below `max` does not wrap: the signed result of a range command is `min + q` (R182, R191). -/
theorem toInt_add_ofNat {min max : Word} {q : Nat} (h : min.toInt + q ≤ max.toInt) :
    (min + BitVec.ofNat 32 q).toInt = min.toInt + q := by
  have hmin := min.le_toInt
  have hmax := max.toInt_lt
  rw [BitVec.toInt_add, BitVec.toInt_ofNat', Int.add_bmod_bmod, Int.bmod_eq_of_le (by omega) (by omega)]

/-- Settles O37: the loop is `drawBelowLimit_cacheInterval`, and `min + (w mod I)` does not wrap. -/
theorem mtExactRangeResult : Obligations.MtExactRangeResult := by
  unfold Obligations.MtExactRangeResult
  intro min max s k hh hseeded hs hle hwidth hk n hrej hacc
  have hcheck : rangeCheck min max = some n := rangeCheck_of_accepted hle hwidth
  have hn : 1 ≤ n := (rangeCheck_bounds hcheck).1
  generalize hw : mtDrawnWord (afterMtDraws k s) = w at hacc ⊢
  have hmod : w.toNat % n < n := Nat.mod_lt _ hn
  have hresult : (min + BitVec.ofNat 32 (w.toNat % n)).toInt = min.toInt + (w.toNat % n : Nat) :=
    toInt_add_ofNat (max := max) (by omega)
  refine ⟨min + BitVec.ofNat 32 (w.toNat % n), ?_, hresult, by omega, by omega⟩
  have hloop := drawBelowLimit_cacheInterval hs hn hk hrej (hw ▸ hacc)
  rw [exec_mtCommand rfl, commandResult, hseeded, ifSeeded_true, withInterval_some hcheck, hloop, hw]
  simp only
  rw [runCommand_completes hh, respond_okResponse, exactResult, wordResult_eq_append]
  rfl

end Sys2Proof.Machine
end

/-! ## Memory (20_memory.md): the turn of the step, the answer to a command, and the wait for seed words

The step's turn is one equation per case of `nextTurn`; the equations O7 and O9 state are read off them. -/

section
namespace Sys2Proof.Machine

/-! ### The next turn (20_memory.md R74, R80, 70_reset_and_hazards.md R291, R292) -/

section
variable {s : State} {i : Instr} {rest : List HostInput}

theorem step_of_run {t : State} (h : nextTurn s = .run i t) : step s = exec i t := by rw [step, h]

theorem step_of_settled {t : State} (h : nextTurn s = .settled t) : step s = .next t := by rw [step, h]

theorem nextTurn_idle (he : s.executing = none) (hi : s.inputs = []) : nextTurn s = .settled s := by
  simp only [nextTurn, he, hi]

theorem nextTurn_idle_seedWord {w : Word} (he : s.executing = none) (hi : s.inputs = .seedWord w :: rest) :
    nextTurn s = .settled ({ s with inputs := rest }.appendSeed w) := by
  simp only [nextTurn, he, hi]

theorem nextTurn_idle_command {w : CommandWord} (he : s.executing = none) (hi : s.inputs = .command w :: rest) :
    nextTurn s = takeCommand w { s with inputs := rest } := by
  simp only [nextTurn, he, hi]

theorem nextTurn_executing (he : s.executing = some i) (hi : s.inputs = []) : nextTurn s = .run i s := by
  simp only [nextTurn, he, hi]

theorem nextTurn_executing_seedWord {w : Word} (he : s.executing = some i) (hi : s.inputs = .seedWord w :: rest) :
    nextTurn s = .run i ({ s with inputs := rest }.appendSeed w) := by
  simp only [nextTurn, he, hi]

theorem nextTurn_executing_command {w : CommandWord} (he : s.executing = some i) (hi : s.inputs = .command w :: rest) :
    nextTurn s = .run i s := by
  simp only [nextTurn, he, hi]

theorem takeCommand_of_decode {w : CommandWord} (hd : decode w = .ok i) : takeCommand w s = .run i s := by
  simp only [takeCommand, hd]

/-- A command presented to a block that executes none is executed as it decodes, on the state without it. -/
theorem step_command {w : CommandWord} (he : s.executing = none) (hi : s.inputs = .command w :: rest) (hd : decode w = .ok i) :
    step s = exec i { s with inputs := rest } :=
  step_of_run ((nextTurn_idle_command he hi).trans (takeCommand_of_decode hd))

/-- What a table word stands for is what its command word decodes to. -/
theorem decode_of_decodeTableWord {nbits w : Nat} (h : decodeTableWord nbits w = some i) :
    decode (tableCommandWord nbits w) = .ok i := by
  unfold decodeTableWord at h
  split at h
  · split at h
    case h_1 j hd => rw [hd, Option.some.inj h]
    case h_2 => cases h
  · cases h

/-- A word placed by `withFetchWord` is the next to be taken, in every state. -/
theorem step_withFetchWord {nbits w : Nat} (h : decodeTableWord nbits w = some i) :
    step (s.withFetchWord nbits w) = exec i { s with executing := none } :=
  step_command rfl rfl (decode_of_decodeTableWord h)

end

/-- Settles O7: the cases of `nextTurn` that execute a command. -/
theorem stepRunsTheDecodedCommand : Obligations.StepRunsTheDecodedCommand := by
  unfold Obligations.StepRunsTheDecodedCommand
  refine ⟨?_, ?_, ?_, ?_, ?_⟩
  · exact fun s w rest i he hi hd => step_command he hi hd
  · exact fun s w rest i he hi => step_of_run (nextTurn_executing_command he hi)
  · exact fun s i he hi => step_of_run (nextTurn_executing he hi)
  · exact fun s w rest i he hi => step_of_run (nextTurn_executing_seedWord he hi)
  · exact fun s w i h => step_withFetchWord h

/-- Settles O9: the cases of `nextTurn` in which a block that executes no command settles without answering one. -/
theorem idleBlockQueuesSeedWordsOrWaits : Obligations.IdleBlockQueuesSeedWordsOrWaits := by
  unfold Obligations.IdleBlockQueuesSeedWordsOrWaits
  intro s he
  constructor
  · exact fun w rest hi => step_of_settled (nextTurn_idle_seedWord he hi)
  · exact fun hi => step_of_settled (nextTurn_idle he hi)

/-! ### The answer to a command (20_memory.md R80, 30_encoding.md R96) -/

/-- Settles O12: a refusal, a completion and a fault each send one response; a wait sends none. The effect itself sends nothing
(`EffectFrame.responses`). -/
theorem oneResponsePerCommand : Obligations.OneResponsePerCommand := by
  unfold Obligations.OneResponsePerCommand
  intro i s t h
  obtain ⟨-, rfl⟩ | ⟨-, ht⟩ := exec_next h
  · exact .inl ⟨_, respond_responses _ _, respond_executing _ _⟩
  · obtain ⟨-, rfl⟩ | ⟨-, v, u, -, hf, rfl⟩ | ⟨-, u, -, hf, rfl⟩ | ⟨-, c, -, rfl⟩ := runCommand_cases ht
    · exact .inl ⟨_, refuseHalted_responses s, refuseHalted_executing s⟩
    · refine .inl ⟨okResponse v, ?_, respond_executing _ _⟩
      rw [respond_responses, hf.responses]
    · exact .inr ⟨hf.responses, rfl⟩
    · exact .inl ⟨_, raiseFault_responses s c, raiseFault_executing s c⟩

/-! ### MT_INIT_ARRAY with too few words queued (40_mt_seeding.md R124, 70_reset_and_hazards.md R292) -/

/-- An accepted length is the signed value of its field (30_encoding.md R92). -/
theorem lengthCheck_of_toInt {length : Word} {n : Nat} (h : length.toInt = (n : Int)) (hn : 1 ≤ n) : lengthCheck length = some n := by
  rw [lengthCheck_eq_some, sval_eq_toInt]
  omega

theorem commandResult_mtInitArray_waits {length : Word} {n : Nat} {s : State} (hcheck : lengthCheck length = some n)
    (hq : s.seedq.length < n) : commandResult (.mtInitArray length) s = .waits s := by
  simp only [commandResult, hcheck, if_pos hq]

/-- Settles O33: a length above that of the queue is at least 1, so it is accepted, and the command's result is to wait. -/
theorem mtInitArrayWaits : Obligations.MtInitArrayWaits := by
  unfold Obligations.MtInitArrayWaits
  intro length n s hh hlen hq
  have hcheck : lengthCheck length = some n := lengthCheck_of_toInt hlen (by omega)
  rw [exec_mtCommand rfl, commandResult_mtInitArray_waits hcheck hq, runCommand_waits hh]

end Sys2Proof.Machine
end

/-! ## Encoding (30_encoding.md): command words, the opcode map and response words

The branches of `decode` are split once, in `decode_cases`: a word of an assigned opcode decodes to a command whose encoding is the word
with the ignored fields cleared, and any other word is rejected. The statements on decoding follow from it and from `decode_encode`. -/

section
namespace Sys2Proof.Machine

open Sys2Proof.Laws.Canonical (commandOp_commandWord commandA_commandWord commandB_commandWord)

/-! ### Command words (R90, R91) -/

/-- The word with zero in every field that format `f` ignores (R91). -/
def clearIgnored (f : Format) (w : CommandWord) : CommandWord :=
  commandWord (commandOp w) (if f = .z then 0 else commandA w) (if f = .r then commandB w else 0)

/-- A command word is its three fields (R90). -/
theorem commandWord_fields (w : CommandWord) : commandWord (commandOp w) (commandA w) (commandB w) = w := by
  have hop : commandOp w ++ commandA w = w.extractLsb' 32 40 := BitVec.extractLsb'_append_extractLsb'_eq_extractLsb' rfl
  have hall : w.extractLsb' 32 40 ++ commandB w = w.extractLsb' 0 72 := BitVec.extractLsb'_append_extractLsb'_eq_extractLsb' rfl
  rw [commandWord, hop, hall, BitVec.extractLsb'_eq_self]

theorem commandWord_eq_iff {op : BitVec 8} {a b : Word} {w : CommandWord} :
    commandWord op a b = w ↔ commandOp w = op ∧ commandA w = a ∧ commandB w = b := by
  constructor
  · rintro rfl
    exact ⟨commandOp_commandWord op a b, commandA_commandWord op a b, commandB_commandWord op a b⟩
  · rintro ⟨rfl, rfl, rfl⟩
    exact commandWord_fields w

theorem clearIgnored_r (w : CommandWord) : clearIgnored .r w = w := commandWord_fields w

/-- A word of an assigned opcode is canonical when clearing its ignored fields leaves it as it is (R101). -/
theorem isCanonical_iff_clearIgnored {f : Format} {w : CommandWord} (hf : formatOf (commandOp w) = some f) :
    isCanonical w = true ↔ clearIgnored f w = w := by
  rw [isCanonical, hf, clearIgnored, commandWord_eq_iff]
  cases f <;> simp

/-! ### The opcode map (R93, R94) -/

/-- The assigned opcodes are the eleven of the map. -/
theorem formatOf_eq_none_iff (op : BitVec 8) :
    formatOf op = none ↔ op ∉ [0x00, 0x01, 0x02, 0x03, 0x04, 0x05, 0x10, 0x12, 0x13, 0x14, 0x20] := by
  unfold formatOf
  split <;> simp_all

/-- What decoding a word comes to. -/
theorem decode_cases (w : CommandWord) :
    (∃ i, decode w = .ok i ∧ formatOf (commandOp w) = some i.format ∧ encode i = clearIgnored i.format w) ∨
    (formatOf (commandOp w) = none ∧ decode w = .error (.reservedOpcode (commandOp w))) := by
  unfold decode
  split
  case h_12 => exact .inr ⟨by simp_all [formatOf_eq_none_iff], rfl⟩
  all_goals
    rename_i hop
    exact .inl ⟨_, rfl, by rw [hop]; rfl, by rw [clearIgnored, hop]; rfl⟩

/-- The opcode of an encoding selects the command's own branch of the map, which reads back the operands its format uses. -/
theorem decode_encode (i : Instr) : decode (encode i) = .ok i := by
  cases i <;> simp [encode, decode, commandOp_commandWord, commandA_commandWord, commandB_commandWord]

theorem encode_injective : Function.Injective encode := fun i j h =>
  Except.ok.inj ((decode_encode i).symm.trans ((congrArg decode h).trans (decode_encode j)))

theorem decode_eq_ok_iff {w : CommandWord} {i : Instr} :
    decode w = .ok i ↔ formatOf (commandOp w) = some i.format ∧ encode i = clearIgnored i.format w := by
  obtain ⟨j, hj, hf, he⟩ | ⟨hf, hd⟩ := decode_cases w
  · rw [hj]
    constructor
    · intro h
      cases h
      exact ⟨hf, he⟩
    · rintro ⟨hf', he'⟩
      have hformat : i.format = j.format := Option.some.inj (hf'.symm.trans hf)
      rw [encode_injective (he'.trans (hformat ▸ he.symm))]
  · simp [hf, hd]

/-- Settles O1: this is `decode_encode`. -/
theorem everyCommandIsReadBack : Obligations.EveryCommandIsReadBack := by
  unfold Obligations.EveryCommandIsReadBack
  exact decode_encode

/-- Settles O2: a canonical word has an assigned opcode, so it decodes, and its command's encoding is the word with the ignored fields
cleared, the word itself. -/
theorem canonicalWordsAreTheEncodings : Obligations.CanonicalWordsAreTheEncodings := by
  unfold Obligations.CanonicalWordsAreTheEncodings
  intro w
  constructor
  · intro hw
    obtain ⟨i, -, hf, he⟩ | ⟨hf, -⟩ := decode_cases w
    · exact ⟨i, he.trans ((isCanonical_iff_clearIgnored hf).1 hw)⟩
    · simp [isCanonical, hf] at hw
  · rintro ⟨i, rfl⟩
    obtain ⟨hf, he⟩ := decode_eq_ok_iff.1 (decode_encode i)
    exact (isCanonical_iff_clearIgnored hf).2 he.symm

/-- A word with the opcode of `w`, and with its operands where the command's format uses them, decodes as `w` does (R91). -/
theorem decode_congr {w v : CommandWord} {i : Instr} (h : decode w = .ok i) (hop : commandOp v = commandOp w)
    (hfields : clearIgnored i.format v = clearIgnored i.format w) : decode v = .ok i := by
  obtain ⟨hf, he⟩ := decode_eq_ok_iff.1 h
  exact decode_eq_ok_iff.2 ⟨hop ▸ hf, he.trans hfields.symm⟩

/-- Settles O3: encoding clears the ignored fields (`decode_eq_ok_iff`), and words that agree once they are cleared decode alike
(`decode_congr`). -/
theorem ignoredFieldsAreDropped : Obligations.IgnoredFieldsAreDropped := by
  unfold Obligations.IgnoredFieldsAreDropped
  intro w i h
  obtain ⟨-, he⟩ := decode_eq_ok_iff.1 h
  have hdecode : ∀ a b, clearIgnored i.format (commandWord (commandOp w) a b) = clearIgnored i.format w →
      decode (commandWord (commandOp w) a b) = .ok i := fun a b => decode_congr h (commandOp_commandWord _ a b)
  cases hformat : i.format <;> rw [hformat] at he hdecode
  case z => exact ⟨he, fun a b => hdecode a b (by simp [clearIgnored, commandOp_commandWord])⟩
  case s => exact ⟨he, fun b => hdecode _ b (by simp [clearIgnored, commandOp_commandWord, commandA_commandWord])⟩
  case v => exact ⟨he, fun b => hdecode _ b (by simp [clearIgnored, commandOp_commandWord, commandA_commandWord])⟩
  case r => exact he.trans (clearIgnored_r w)

/-- Settles O4: the opcodes that `formatOf` assigns are the eleven, and by `decode_cases` a word is rejected when its opcode is none of
them and decodes when it is one. -/
theorem reservedOpcodesAreRejected : Obligations.ReservedOpcodesAreRejected := by
  unfold Obligations.ReservedOpcodesAreRejected
  intro w
  rw [← formatOf_eq_none_iff]
  obtain ⟨i, hd, hf, -⟩ | ⟨hf, hd⟩ := decode_cases w
  · exact ⟨fun h => absurd (h.symm.trans hf) (by simp), fun _ => ⟨i, hd⟩⟩
  · exact ⟨fun _ => hd, fun h => absurd h ((formatOf_eq_none_iff _).1 hf)⟩

/-- Settles O5: the nine words are closed, so the decoder is run on them. -/
theorem specWordsDecode : Obligations.SpecWordsDecode := by
  unfold Obligations.SpecWordsDecode
  decide

/-! ### Response words (R96) -/

@[simp] theorem responseValue_okResponse (v : BitVec 64) : responseValue (okResponse v) = v :=
  BitVec.extractLsb'_append_eq_right

/-- Settles O6: each of the three fields of the two forms. -/
theorem responseFieldsAsTabled : Obligations.ResponseFieldsAsTabled := by
  unfold Obligations.ResponseFieldsAsTabled
  exact fun v c => ⟨responseErr_okResponse v, responseCode_okResponse v, responseValue_okResponse v,
    responseErr_errResponse c, responseCode_errResponse c, responseValue_errResponse c⟩

end Sys2Proof.Machine
end

/-! ## MT seeding (40_mt_seeding.md): the two seedings, and faults that change nothing else

Each seeding is tied to the pseudocode once, as an equation of registers: `seedBlock_eq_seedLoop` by the recurrence of R121 that both
meet, `arraySeedBlock_eq_arraySeedLoop` by a relation between the cursor and the variables of R123 that every turn keeps. -/

section
namespace Sys2Proof.Machine

/-! ### The seeding recurrence (R121) -/

/-- Each word is the recurrence's value of the word before. -/
def SeededFrom (c : Config) (words : List Word) : Prop :=
  ∀ i < 623, wordAt words (i + 1) = seedNext c (wordAt words i) (i + 1)

theorem wordAt_seedWords_zero (c : Config) (n i : Nat) (w : Word) : wordAt (seedWords c n i w) 0 = w := by
  cases n <;> rfl

theorem wordAt_seedWords_succ {c : Config} {n k : Nat} (i : Nat) (w : Word) (h : k < n) :
    wordAt (seedWords c n i w) (k + 1) = seedNext c (wordAt (seedWords c n i w) k) (k + i) := by
  induction n generalizing i w k with
  | zero => cases h
  | succ n ih =>
    cases k with
    | zero => exact (wordAt_seedWords_zero c n (i + 1) (seedNext c w i)).trans (by rw [wordAt_seedWords_zero, Nat.zero_add])
    | succ k =>
      rw [Nat.add_right_comm k 1 i]
      exact ih (i + 1) (seedNext c w i) (Nat.lt_of_succ_lt_succ h)

theorem seededFrom_seedBlock (c : Config) (seed : Word) : SeededFrom c (seedBlock c seed).words :=
  fun _ hi => wordAt_seedWords_succ 1 seed hi

theorem mtSet_words (mt : Block) (i : Nat) (w : Word) : (mtSet mt i w).words = mt.words.set i w := rfl

/-- One turn of R121's loop. -/
def seedTurn (c : Config) (i : Nat) (mt : Block) : Block := mtSet mt i (seedNext c (mtWord mt (i - 1)) i)

theorem seedLoop_eq (c : Config) (seed : Word) (mt : Block) :
    seedLoop c seed mt = forAscending (seedTurn c) 623 1 (mtSet mt 0 seed) := rfl

/-- Writing word `i` of `new` into a register whose words before `i` are those of `new` already. -/
theorem mtSet_mixedWords {old new : List Word} (hold : old.length = 624) (hnew : new.length = 624) {i : Nat} (hi : i < 624) {mt : Block}
    (hmt : mt.words = mixedWords old new i) : (mtSet mt i (wordAt new i)).words = mixedWords old new (i + 1) :=
  (congrArg (List.set · i (wordAt new i)) hmt).trans (mixedWords_set hold hnew hi)

/-- The rest of the loop, from turn `i + 1` on, makes the rest of the register new: a turn reads the word before its own, which is new. -/
theorem forAscending_seedTurn {c : Config} {old new : List Word} (hold : old.length = 624) (hnew : new.length = 624)
    (hrec : SeededFrom c new) (n i : Nat) (hi : i + n = 623) {mt : Block} (hmt : mt.words = mixedWords old new (i + 1)) :
    (forAscending (seedTurn c) n (i + 1) mt).words = mixedWords old new 624 := by
  induction n generalizing i mt with
  | zero =>
    obtain rfl : i = 623 := hi
    exact hmt
  | succ n ih =>
    have hbefore : mtWord mt i = wordAt new i := by
      rw [mtWord_eq_wordAt, hmt, mixedWords_before hnew (by omega) (Nat.lt_succ_self i)]
    refine ih (i + 1) (by omega) ?_
    rw [seedTurn, Nat.add_sub_cancel, hbefore, ← hrec i (by omega)]
    exact mtSet_mixedWords hold hnew (by omega) hmt

/-- The register of MT_INIT is the one the loop of R121 leaves, whatever it held. -/
theorem seedBlock_eq_seedLoop (c : Config) (seed : Word) (mt : Block) : seedBlock c seed = seedLoop c seed mt := by
  have hnew := (seedBlock c seed).size
  have hfirst : (mtSet mt 0 seed).words = mixedWords mt.words (seedBlock c seed).words 1 :=
    mtSet_mixedWords mt.size hnew (by omega) rfl
  refine block_ext ?_
  rw [seedLoop_eq, forAscending_seedTurn mt.size hnew (seededFrom_seedBlock c seed) 623 0 rfl hfirst, mixedWords,
    List.take_of_length_le hnew.le, List.drop_of_length_le mt.size.le, List.append_nil]

/-- Settles O14: the loop's register is MT_INIT's, which meets the recurrence. -/
theorem seedingIsThePseudocode : Obligations.SeedingIsThePseudocode := by
  unfold Obligations.SeedingIsThePseudocode
  intro c seed mt
  rw [← seedBlock_eq_seedLoop]
  refine ⟨rfl, rfl, fun i h1 h2 => ?_⟩
  obtain ⟨i, rfl⟩ := Nat.exists_eq_add_of_le' h1
  exact seededFrom_seedBlock c seed i (by omega)

/-! ### The walk of array seeding (R123) -/

/-- One turn of a pass of R123 whose new word is `f mt[i-1] mt[i] i`. -/
def arraySeedTurn (f : Word → Word → Nat → Word) (v : ArraySeedVars) : ArraySeedVars :=
  arraySeedNextI { v with mt := mtSet v.mt v.i (f (mtWord v.mt (v.i - 1)) (mtWord v.mt v.i) v.i) }

/-- The new word of the first pass, for the seed word `p.1` at place `p.2`. -/
def passOneWord (c : Config) (p : Word × Nat) (last old : Word) (_ : Nat) : Word :=
  (old ^^^ xorShift 30 last * c.mtK1) + p.1 + BitVec.ofNat 32 p.2

/-- The new word of the second pass. -/
def passTwoWord (c : Config) (last old : Word) (i : Nat) : Word := (old ^^^ xorShift 30 last * c.mtK2) - BitVec.ofNat 32 i

/-- `j <- j + 1`, and back to 0 at the end of the `n` seed words (R123). -/
def nextSeed (n j : Nat) : Nat := if j + 1 ≥ n then 0 else j + 1

theorem nextSeed_lt {n j : Nat} (h : j < n) : nextSeed n j < n := by
  unfold nextSeed
  split <;> omega

theorem arrayPassOne_cons (c : Config) (p : Word × Nat) (ps : List (Word × Nat)) (k : SeedCursor) :
    arrayPassOne c (p :: ps) k = arrayPassOne c ps (seedCursorStep (passOneWord c p) k) := rfl

theorem arrayPassTwo_succ (c : Config) (n : Nat) (k : SeedCursor) :
    arrayPassTwo c (n + 1) k = arrayPassTwo c n (seedCursorStep (passTwoWord c) k) := rfl

theorem arraySeedNextI_j (v : ArraySeedVars) : (arraySeedNextI v).j = v.j := by
  unfold arraySeedNextI
  split <;> rfl

theorem arraySeedTurnOne_eq (c : Config) (seeds : List Word) (v : ArraySeedVars) :
    arraySeedTurnOne c seeds v =
      { arraySeedTurn (passOneWord c (seeds[v.j]?.getD 0, v.j)) v with j := nextSeed seeds.length v.j } := by
  have hj : BitVec.ofNat 32 (v.j % 2 ^ 32) = BitVec.ofNat 32 v.j := BitVec.eq_of_toNat_eq (by simp)
  simp only [arraySeedTurnOne, arraySeedNextI_j, hj]
  rfl

theorem arraySeedTurnTwo_eq (c : Config) (v : ArraySeedVars) : arraySeedTurnTwo c v = arraySeedTurn (passTwoWord c) v := rfl

theorem arraySeedNextI_wrap {i : Nat} (h : i = 623) (mt : Block) (j : Nat) :
    arraySeedNextI { mt := mt, i := i, j := j } = { mt := mtSet mt 0 (mtWord mt i), i := 1, j := j } := by
  subst h
  rfl

theorem arraySeedNextI_next {i : Nat} (h : i < 623) (mt : Block) (j : Nat) :
    arraySeedNextI { mt := mt, i := i, j := j } = { mt := mt, i := i + 1, j := j } :=
  if_neg (by simp only; omega)

theorem seedCursorStep_wrap (f : Word → Word → Nat → Word) {k : SeedCursor} {old : Word} (h : k.ahead = [old]) :
    seedCursorStep f k =
      { i := 1, last := f k.last old k.i, passed := [], ahead := k.passed.reverse ++ [f k.last old k.i] } := by
  simp only [seedCursorStep, h, List.reverse_cons]

theorem seedCursorStep_next (f : Word → Word → Nat → Word) {k : SeedCursor} {old x : Word} {xs : List Word}
    (h : k.ahead = old :: x :: xs) :
    seedCursorStep f k =
      { i := k.i + 1, last := f k.last old k.i, passed := f k.last old k.i :: k.passed, ahead := x :: xs } := by
  simp only [seedCursorStep, h]

/-- The cursor `k` shows the variables `v` of the loop: both stand at the same index, and beside word 0 the register is what the walk
has passed and what lies ahead of it. -/
structure CursorShows (k : SeedCursor) (v : ArraySeedVars) : Prop where
  index : v.i = k.passed.length + 1
  cursorIndex : k.i = v.i
  last : k.last = mtWord v.mt (v.i - 1)
  more : k.ahead ≠ []
  words : ∃ first, v.mt.words = first :: (k.passed.reverse ++ k.ahead)

/-- Reading and writing word `i` of a register cut at word `i`. -/
theorem mtWord_mtSet_of_cut {mt : Block} {i : Nat} {first old : Word} {passed rest : List Word} (hi : i = passed.length + 1)
    (h : mt.words = first :: (passed.reverse ++ old :: rest)) :
    mtWord mt i = old ∧ ∀ new, (mtSet mt i new).words = first :: (passed.reverse ++ new :: rest) := by
  subst hi
  exact ⟨by simp [mtWord, h], fun new => by simp [mtSet, h]⟩

/-- One step of the walk and one turn of the loop, with the same new word. At the end of the register both go back to index 1, where
the word before is the one just written. -/
theorem CursorShows.turn {k : SeedCursor} {v : ArraySeedVars} (f : Word → Word → Nat → Word) (h : CursorShows k v) :
    CursorShows (seedCursorStep f k) (arraySeedTurn f v) := by
  obtain ⟨hi, hk, hlast, hmore, first, hwords⟩ := h
  cases hahead : k.ahead with
  | nil => exact absurd hahead hmore
  | cons old rest =>
    rw [hahead] at hwords
    obtain ⟨hold, hset⟩ := mtWord_mtSet_of_cut hi hwords
    have hnew : ∀ new, mtWord (mtSet v.mt v.i new) v.i = new := fun new => (mtWord_mtSet_of_cut hi (hset new)).1
    have hlen : v.i + rest.length = 623 := by
      have hsize := v.mt.size
      simp only [hwords, List.length_cons, List.length_append, List.length_reverse] at hsize
      omega
    rw [arraySeedTurn, hold, ← hlast, ← hk]
    cases rest with
    | nil =>
      have hend : v.i = 623 := hlen
      have hwrapped : ∀ new, (mtSet (mtSet v.mt v.i new) 0 new).words = new :: (k.passed.reverse ++ [new]) := fun new => by
        rw [mtSet_words, hset, List.set_cons_zero]
      have hfirst : ∀ new, mtWord (mtSet (mtSet v.mt v.i new) 0 new) 0 = new := fun new => by
        rw [mtWord, hwrapped, List.getElem?_cons_zero, Option.getD_some]
      rw [seedCursorStep_wrap f hahead, hk, arraySeedNextI_wrap hend, hnew]
      exact ⟨rfl, rfl, (hfirst _).symm, by simp, _, hwrapped _⟩
    | cons x xs =>
      rw [seedCursorStep_next f hahead, hk, arraySeedNextI_next (by rw [List.length_cons] at hlen; omega)]
      refine ⟨congrArg (· + 1) hi, rfl, (hnew _).symm, by simp, first, ?_⟩
      rw [List.reverse_cons, List.append_assoc]
      exact hset _

/-! ### The two passes (R123) -/

theorem CursorShows.withSeed {k : SeedCursor} {v : ArraySeedVars} (h : CursorShows k v) (j : Nat) : CursorShows k { v with j := j } :=
  ⟨h.index, h.cursorIndex, h.last, h.more, h.words⟩

theorem takeCyclic_nil {α : Type} (whole : List α) (n : Nat) : takeCyclic whole n [] = takeCyclic whole n whole := by
  cases n with
  | zero => rfl
  | succ n => cases whole <;> rfl

/-- The next pair of the circle is that of place `j`. -/
theorem takeCyclic_zipIdx {seeds : List Word} {j : Nat} (hj : j < seeds.length) (n : Nat) :
    takeCyclic seeds.zipIdx (n + 1) (seeds.zipIdx.drop j) =
      (seeds[j]?.getD 0, j) :: takeCyclic seeds.zipIdx n (seeds.zipIdx.drop (nextSeed seeds.length j)) := by
  have hlen : seeds.zipIdx.length = seeds.length := List.length_zipIdx
  have hdrop : seeds.zipIdx.drop j = (seeds[j]?.getD 0, j) :: seeds.zipIdx.drop (j + 1) := by
    rw [List.drop_eq_getElem_cons (hlen ▸ hj)]
    simp [hj]
  rw [hdrop, takeCyclic, nextSeed]
  split
  case isTrue hend => rw [List.drop_of_length_le (hlen ▸ hend), takeCyclic_nil, List.drop_zero]
  case isFalse => rfl

theorem CursorShows.passOne {c : Config} {seeds : List Word} {k : SeedCursor} {v : ArraySeedVars} (n : Nat) (h : CursorShows k v)
    (hj : v.j < seeds.length) :
    CursorShows (arrayPassOne c (takeCyclic seeds.zipIdx n (seeds.zipIdx.drop v.j)) k)
      (repeatTimes (arraySeedTurnOne c seeds) n v) := by
  induction n generalizing k v with
  | zero => exact h
  | succ n ih =>
    rw [takeCyclic_zipIdx hj, arrayPassOne_cons, repeatTimes, arraySeedTurnOne_eq]
    exact ih ((h.turn _).withSeed _) (nextSeed_lt hj)

theorem CursorShows.passTwo {c : Config} {k : SeedCursor} {v : ArraySeedVars} (n : Nat) (h : CursorShows k v) :
    CursorShows (arrayPassTwo c n k) (repeatTimes (arraySeedTurnTwo c) n v) := by
  induction n generalizing k v with
  | zero => exact h
  | succ n ih =>
    rw [arrayPassTwo_succ, repeatTimes, arraySeedTurnTwo_eq]
    exact ih (h.turn _)

theorem cursorShows_start (c : Config) (seed : Word) : CursorShows (seedCursorStart c seed) { mt := seedBlock c seed, i := 1, j := 0 } :=
  ⟨rfl, rfl, rfl, List.cons_ne_nil _ _, seed, rfl⟩

/-- The register of MT_INIT_ARRAY is the one the passes of R123 leave on the register of MT_INIT. -/
theorem arraySeedBlock_eq_arraySeedLoop (c : Config) {seeds : List Word} (mt : Block) (h : seeds ≠ []) :
    arraySeedBlock c seeds = arraySeedLoop c seeds (seedLoop c c.mtArraySeed mt) := by
  rw [← seedBlock_eq_seedLoop]
  have hone := (cursorShows_start c c.mtArraySeed).passOne (c := c) (max 624 seeds.length) (List.length_pos_of_ne_nil h)
  simp only [List.drop_zero] at hone
  obtain ⟨first, hwords⟩ := (hone.passTwo (c := c) 623).words
  refine block_ext ?_
  rw [arraySeedLoop, mtSet_words, hwords, List.set_cons_zero]
  rfl

/-- Settles O15, by `arraySeedBlock_eq_arraySeedLoop`. -/
theorem arraySeedingIsThePseudocode : Obligations.ArraySeedingIsThePseudocode := by
  unfold Obligations.ArraySeedingIsThePseudocode
  exact fun c seeds mt h => arraySeedBlock_eq_arraySeedLoop c mt h

/-! ### A seeded register is not all zero (R122, R125) -/

/-- After a zero word the recurrence gives the word's place. -/
theorem seedNext_zero (c : Config) (i : Nat) : seedNext c 0 i = BitVec.ofNat 32 i := by
  simp [seedNext, xorShift]

/-- Settles O18: in MT_INIT's register word 1 is not zero, or word 2 is 2. -/
theorem seededRegisterIsNotZero : Obligations.SeededRegisterIsNotZero := by
  unfold Obligations.SeededRegisterIsNotZero
  refine ⟨fun c seed mt => ?_, fun c seeds => ⟨rfl, fun h => ⟨0, by omega, h⟩⟩, rfl⟩
  rw [← seedBlock_eq_seedLoop]
  by_cases h1 : mtWord (seedBlock c seed) 1 = 0
  · have h2 : mtWord (seedBlock c seed) 2 = seedNext c (mtWord (seedBlock c seed) 1) 2 :=
      seededFrom_seedBlock c seed 1 (by omega)
    refine ⟨2, by omega, by omega, ?_⟩
    rw [h2, h1, seedNext_zero]
    decide
  · exact ⟨1, by omega, by omega, h1⟩

/-! ### The seeding commands (R121, R122, R124) -/

/-- Settles O31: the state of `exec_mtInit`, with its register written as the loop's. -/
theorem mtInitResult : Obligations.MtInitResult := by
  unfold Obligations.MtInitResult
  intro seed s hs
  rw [exec_mtInit seed hs, ← seedBlock_eq_seedLoop]
  rfl

theorem commandResult_mtInitArray_completes {length : Word} {n : Nat} {s : State} (hcheck : lengthCheck length = some n)
    (hq : n ≤ s.seedq.length) :
    commandResult (.mtInitArray length) s =
      .completes noResult ({ s with seedq := s.seedq.drop n }.mtInitArray (s.seedq.take n)) := by
  simp only [commandResult, hcheck, if_neg (not_lt.mpr hq)]

/-- Settles O32: the length is accepted, so the words popped are not none and their seeding is that of R123. -/
theorem mtInitArrayResult : Obligations.MtInitArrayResult := by
  unfold Obligations.MtInitArrayResult
  intro length n s hs hlen hn hq
  have hpopped : s.seedq.take n ≠ [] := by
    rw [← List.length_pos_iff_ne_nil, List.length_take]
    omega
  rw [exec_mtCommand rfl, commandResult_mtInitArray_completes (lengthCheck_of_toInt hlen hn) hq, runCommand_completes hs,
    ← arraySeedBlock_eq_arraySeedLoop s.cfg s.mt hpopped]
  rfl

/-- Settles O58: what `MtAlike` compares is either among the assumed equal or written by MT_INIT from the seed and the parameters; it
empties the cache, and an empty cache is consistent. -/
theorem mtInitForgetsThePast : Obligations.MtInitForgetsThePast := by
  unfold Obligations.MtInitForgetsThePast
  intro seed s s' hcfg hseedq hs hs'
  have hmt : seedBlock s.cfg seed = seedBlock s'.cfg seed := by rw [hcfg]
  refine ⟨_, _, exec_mtInit seed hs, exec_mtInit seed hs', ⟨hcfg, hmt, rfl, rfl, hs.trans hs'.symm, hseedq⟩, ?_, ?_, rfl, ?_⟩
  · exact fun h => absurd rfl h
  · exact fun h => absurd rfl h
  · exact seedBlock_eq_seedLoop s.cfg seed s'.mt

/-! ### Faults (R120, 60_exceptions.md R240, R242) -/

theorem ifSeeded_faults {b : Bool} {r : CommandResult} {c : FaultCode} (h : ifSeeded b r = .faults c) :
    c = .unseeded ∨ r = .faults c := by
  cases b
  · cases h
    exact .inl rfl
  · exact .inr h

theorem withInterval_faults {min max : Word} {f : Nat → CommandResult} {c : FaultCode} (h : withInterval min max f = .faults c) :
    c = .precondRange ∨ ∃ n, f n = .faults c := by
  unfold withInterval at h
  split at h
  · cases h
    exact .inl rfl
  · exact .inr ⟨_, h⟩

theorem ifSeeded_completes_faults {b : Bool} {v : BitVec 64} {t : State} {c : FaultCode}
    (h : ifSeeded b (.completes v t) = .faults c) : c = .unseeded :=
  (ifSeeded_faults h).resolve_right CommandResult.noConfusion

/-- A range command whose effect never faults has the faults of its two checks. -/
theorem ifSeeded_withInterval_faults {b : Bool} {min max : Word} {f : Nat → CommandResult} {c : FaultCode} (hf : ∀ n, f n ≠ .faults c)
    (h : ifSeeded b (withInterval min max f) = .faults c) : c = .unseeded ∨ c = .precondRange := by
  obtain hc | h := ifSeeded_faults h
  · exact .inl hc
  · exact .inr ((withInterval_faults h).resolve_right fun ⟨n, hn⟩ => hf n hn)

/-- The faults of an executed command are PRECOND_LENGTH, UNSEEDED and PRECOND_RANGE: its opcode is not reserved. -/
theorem commandResult_faults {i : Instr} {s : State} {c : FaultCode} (h : commandResult i s = .faults c) :
    c = .precondLength ∨ c = .unseeded ∨ c = .precondRange := by
  cases i with
  | mtInit seed => cases h
  | mtInitArray length =>
    simp only [commandResult] at h
    split at h
    · cases h
      exact .inl rfl
    · split at h <;> cases h
  | mtNextWord => exact .inr (.inl (ifSeeded_completes_faults h))
  | mtNextFloat => exact .inr (.inl (ifSeeded_completes_faults h))
  | mtBiasedRange min max => exact .inr (ifSeeded_withInterval_faults (fun _ => CommandResult.noConfusion) h)
  | mtExactRange min max =>
    refine .inr (ifSeeded_withInterval_faults (fun n => ?_) h)
    split <;> exact CommandResult.noConfusion
  | mgInit seed => cases h
  | mgNextWord => exact .inr (.inl (ifSeeded_completes_faults h))
  | mgNextFloat => exact .inr (.inl (ifSeeded_completes_faults h))
  | mgBiasedRange min max => exact .inr (ifSeeded_withInterval_faults (fun _ => CommandResult.noConfusion) h)
  | stat => cases h

/-- Settles O48: of the outcomes of a command only a fault sets the latch, since an effect keeps it (`EffectFrame.halt`). -/
theorem faultsArePrecise : Obligations.FaultsArePrecise := by
  unfold Obligations.FaultsArePrecise
  intro i s t hs h ht
  obtain ⟨-, rfl⟩ | ⟨-, hrun⟩ := exec_next h
  · cases hs.symm.trans ht
  · obtain ⟨hs', -⟩ | ⟨-, v, u, -, hf, rfl⟩ | ⟨-, u, -, hf, rfl⟩ | ⟨-, c, hc, rfl⟩ := runCommand_cases hrun
    · cases hs.symm.trans hs'
    · cases (hf.halt.trans hs).symm.trans ht
    · cases (hf.halt.trans hs).symm.trans ht
    · refine ⟨c.bits, ?_, rfl⟩
      obtain rfl | rfl | rfl := commandResult_faults hc <;> decide

end Sys2Proof.Machine
end

/-! ## The MT draw (41_mt_draw.md): regeneration, tempering and MT_NEXT_WORD

Regeneration and the draw are tied to the pseudocode by `regenerate_eq_regenerateLoop` and `mtDraw_eq` above; here stand what is read off
them, the command, and the published values. -/

section
namespace Sys2Proof.Machine

/-! ### Regeneration (R141, R142) -/

/-- Settles O16: both registers are the one that the recurrence of R142 determines. -/
theorem regenerationIsThePseudocode : Obligations.RegenerationIsThePseudocode := by
  unfold Obligations.RegenerationIsThePseudocode
  exact regenerate_eq_regenerateLoop

/-- The register that the loop of R141 leaves meets R142's recurrence. -/
theorem regeneratedFrom_regenerateLoop (c : Config) (mt : Block) : RegeneratedFrom c mt.words (regenerateLoop c mt).words := by
  rw [← regenerate_eq_regenerateLoop]
  exact regeneratedFrom_regenerateWords mt.size

/-- Settles O17: the recurrence that the loop's register meets, with its two switches written as R142 writes them. -/
theorem regenerationReadsNewWordsFrom227 : Obligations.RegenerationReadsNewWordsFrom227 := by
  unfold Obligations.RegenerationReadsNewWordsFrom227
  intro c mt i hi
  have hword := regeneratedFrom_regenerateLoop c mt i (Nat.lt_succ_of_le hi)
  simp only [show i < 623 ↔ i ≤ 622 from Nat.lt_succ_iff, show i < 227 ↔ i ≤ 226 from Nat.lt_succ_iff] at hword
  exact hword

/-! ### MT_NEXT_WORD (R144) -/

theorem exec_mtNextWord {s : State} (hs : s.halt = false) (hseeded : s.mtSeeded = true) :
    exec .mtNextWord s = .next ((mtDraw s).2.respond (okResponse (wordResult (mtDraw s).1))) := by
  rw [exec_mtCommand rfl, commandResult, hseeded, ifSeeded_true, runCommand_completes hs]

/-- Settles O34: the machine's draw is the pseudocode's (`mtDraw_eq`), and the answer is its word with zeros above it. -/
theorem mtNextWordResult : Obligations.MtNextWordResult := by
  unfold Obligations.MtNextWordResult
  intro s hs hseeded
  rw [exec_mtNextWord hs hseeded, mtDraw_eq, respond_okResponse, wordResult_eq_append]

/-! ### Published values (R143, R146), with the default constants -/

/-- Settles O19, by evaluation: `temper` is a function of one word and the constants. -/
theorem temperingExamples : Obligations.TemperingExamples := by
  unfold Obligations.TemperingExamples
  decide

/-- MT_INIT_ARRAY of an accepted length with its words queued (R124). -/
theorem exec_mtInitArray_of_queued {length : Word} {n : Nat} {s : State} (hs : s.halt = false) (hcheck : lengthCheck length = some n)
    (hq : n ≤ s.seedq.length) : exec (.mtInitArray length) s =
      .next (({ s with seedq := s.seedq.drop n }.mtInitArray (s.seedq.take n)).respond (okResponse noResult)) := by
  rw [exec_mtCommand rfl, commandResult_mtInitArray_completes hcheck hq, runCommand_completes hs]

/-- The responses to a seeding, when it is the first command since reset, and to MT_NEXT_WORD after it. -/
theorem firstWord_responses {i : Instr} {s t : State} {v : BitVec 64} (hseeding : exec i s = .next t)
    (hanswer : t.responses = [okResponse noResult]) (ht : t.halt = false) (hseeded : t.mtSeeded = true)
    (hword : wordResult (mtDraw t).1 = v) :
    ∃ t' u, exec i s = .next t' ∧ exec .mtNextWord t' = .next u ∧ u.responses = [okResponse 0, okResponse v] := by
  refine ⟨t, _, hseeding, exec_mtNextWord ht hseeded, ?_⟩
  rw [respond_responses, mtDraw_responses, hanswer, hword]
  rfl

/-- Settles O20: each seeding answers with a seeded register (`exec_mtInit`, `exec_mtInitArray_of_queued`), and the word drawn from it
is evaluated. -/
theorem goldenVectors : Obligations.GoldenVectors := by
  unfold Obligations.GoldenVectors
  refine ⟨?_, ?_, ?_⟩
  · exact firstWord_responses (exec_mtInit 1 rfl) rfl rfl rfl (by decide +kernel)
  · exact firstWord_responses (exec_mtInit 5489 rfl) rfl rfl rfl (by decide +kernel)
  · have hseeding := exec_mtInitArray_of_queued (length := 4) (n := 4)
      (s := { State.reset with seedq := [0x123, 0x234, 0x345, 0x456] }) rfl (by decide +kernel) (by decide)
    exact firstWord_responses hseeding rfl rfl rfl (by decide +kernel)

end Sys2Proof.Machine
end

/-! ## The float converter (42_float_converter.md): the fields of the pattern, its value, and the float commands of both units

A pattern is read through its number `e * 2^52 + f`: the fields and the value of any such pattern are given once, and the two
stages of the converter only have to say what `e` and `f` are. -/

section
namespace Sys2Proof.Machine

/-! ### Patterns with exponent field `e` and fraction field `f` (R161, R163) -/

section
variable {b : BitVec 64} {e f : Nat}

/-- A shift that loses no bit multiplies. -/
theorem toNat_ofNat_shiftLeft {n m : Nat} (h : n * 2 ^ m < 2 ^ 64) : (BitVec.ofNat 64 n <<< m).toNat = n * 2 ^ m := by
  rw [BitVec.toNat_shiftLeft, BitVec.toNat_ofNat, Nat.shiftLeft_eq, Nat.mod_mul_mod, Nat.mod_eq_of_lt h]

/-- The exponent bits shifted into place do not overlap the fraction bits. -/
theorem toNat_exponent_or_fraction (he : e < 2 ^ 11) {y : BitVec 64} (hy : y.toNat < 2 ^ 52) :
    (BitVec.ofNat 64 e <<< 52 ||| y).toNat = e * 2 ^ 52 + y.toNat := by
  rw [BitVec.toNat_or, toNat_ofNat_shiftLeft (by omega), ← Nat.shiftLeft_eq, Nat.shiftLeft_add_eq_or_of_lt hy]

theorem sign_of_toNat (hb : b.toNat = e * 2 ^ 52 + f) (he : e < 2 ^ 11) (hf : f < 2 ^ 52) : b.getLsbD 63 = false := by
  rw [← BitVec.msb_eq_getLsbD_last, BitVec.msb_eq_false_iff_two_mul_lt]
  omega

theorem exponent_of_toNat (hb : b.toNat = e * 2 ^ 52 + f) (he : e < 2 ^ 11) (hf : f < 2 ^ 52) :
    (b.extractLsb' 52 11).toNat = e := by
  rw [BitVec.extractLsb'_toNat, Nat.shiftRight_eq_div_pow, hb]
  omega

theorem fraction_of_toNat (hb : b.toNat = e * 2 ^ 52 + f) (hf : f < 2 ^ 52) : (b.extractLsb' 0 52).toNat = f := by
  rw [BitVec.extractLsb'_toNat, Nat.shiftRight_zero, hb]
  omega

/-- The value of a normal pattern without sign (00_scope.md R9). -/
theorem floatValue_of_toNat (hb : b.toNat = e * 2 ^ 52 + f) (he0 : e ≠ 0) (he : e < 2 ^ 11) (hf : f < 2 ^ 52) :
    floatValue b = (1 + (f : ℚ) / 2 ^ 52) * (2 : ℚ) ^ ((e : ℤ) - 1023) := by
  simp only [floatValue, sign_of_toNat hb he hf, exponent_of_toNat hb he hf, fraction_of_toNat hb hf, if_neg he0,
    Bool.false_eq_true, if_false, one_mul]

end

/-! ### Stage 1 (R161) -/

/-- The constant of stage 1 is the exponent field of [1,2). -/
theorem floatAssemble_eq (w : Word) : floatAssemble w = BitVec.ofNat 64 1023 <<< 52 ||| (w.setWidth 64 <<< 20) :=
  congrArg (· ||| (w.setWidth 64 <<< 20)) (by decide)

theorem floatAssemble_toNat (w : Word) : (floatAssemble w).toNat = 1023 * 2 ^ 52 + w.toNat * 2 ^ 20 := by
  have hy : (w.setWidth 64 <<< 20).toNat = w.toNat * 2 ^ 20 := by
    rw [BitVec.toNat_shiftLeft, BitVec.toNat_setWidth, Nat.shiftLeft_eq]
    omega
  rw [floatAssemble_eq, toNat_exponent_or_fraction (by omega) (by omega), hy]

theorem floatValue_floatAssemble (w : Word) : floatValue (floatAssemble w) = 1 + (w.toNat : ℚ) / 2 ^ 32 := by
  rw [floatValue_of_toNat (floatAssemble_toNat w) (by omega) (by omega) (by omega)]
  push_cast
  ring

/-! ### The result (R162, R163) -/

/-- The position of the highest set bit is fixed by the powers of two around the number. -/
theorem bitlen_eq {p k : Nat} (h1 : 2 ^ k ≤ p) (h2 : p < 2 ^ (k + 1)) : bitlen p = k + 1 := by
  rw [bitlen, Nat.log2_eq_log_two, Nat.log_eq_of_pow_le_of_lt_pow h1 h2]

/-- Every nonzero word has the `k` of R163. -/
theorem exists_pow_le_lt {w : Word} (h : w.toNat ≠ 0) : ∃ k, 2 ^ k ≤ w.toNat ∧ w.toNat < 2 ^ (k + 1) :=
  ⟨w.toNat.log2, Nat.log2_self_le h, Nat.lt_log2_self⟩

section
variable {w : Word} {k : Nat} (h1 : 2 ^ k ≤ w.toNat) (h2 : w.toNat < 2 ^ (k + 1))
include h1

theorem lt_of_pow_le_toNat : k < 32 :=
  (Nat.pow_lt_pow_iff_right (by omega)).mp (h1.trans_lt w.isLt)

include h2

/-- What is left of the word below its highest bit fits the fraction field. -/
theorem fraction_lt : (w.toNat - 2 ^ k) * 2 ^ (52 - k) < 2 ^ 52 := by
  have hk := lt_of_pow_le_toNat h1
  calc (w.toNat - 2 ^ k) * 2 ^ (52 - k) < 2 ^ k * 2 ^ (52 - k) :=
        Nat.mul_lt_mul_of_pos_right (by omega) (Nat.two_pow_pos _)
    _ = 2 ^ 52 := by rw [← Nat.pow_add, Nat.add_sub_cancel' (by omega)]

theorem floatConvert_toNat : (floatConvert w).toNat = (991 + k) * 2 ^ 52 + (w.toNat - 2 ^ k) * 2 ^ (52 - k) := by
  have hk := lt_of_pow_le_toNat h1
  have hf := fraction_lt h1 h2
  have hw0 : w.toNat ≠ 0 := ((Nat.two_pow_pos k).trans_le h1).ne'
  have hy : (BitVec.ofNat 64 (w.toNat - 2 ^ k) <<< (52 - k)).toNat = (w.toNat - 2 ^ k) * 2 ^ (52 - k) :=
    toNat_ofNat_shiftLeft (by omega)
  rw [floatConvert, if_neg hw0, bitlen_eq h1 h2, Nat.add_sub_cancel, toNat_exponent_or_fraction (by omega) (by omega), hy]

end

/-- The converter divides exactly: the exponent `991 + k` is `k - 32` with its bias, and the highest bit, which the fraction lacks, is
the pattern's implicit one. -/
theorem floatValue_floatConvert (w : Word) : floatValue (floatConvert w) = (w.toNat : ℚ) / 2 ^ 32 := by
  by_cases hw : w.toNat = 0
  · rw [floatConvert, if_pos hw, hw]
    simp [floatValue]
  · obtain ⟨k, h1, h2⟩ := exists_pow_le_lt hw
    have hk := lt_of_pow_le_toNat h1
    have hpow : (2 : ℚ) ^ 52 = 2 ^ k * 2 ^ (52 - k) := by rw [← pow_add, Nat.add_sub_cancel' (by omega)]
    have hexp : (2 : ℚ) ^ (((991 + k : Nat) : ℤ) - 1023) = 2 ^ k / 2 ^ 32 := by
      rw [show ((991 + k : Nat) : ℤ) - 1023 = (k : ℤ) - (32 : Nat) by omega, zpow_sub₀ two_ne_zero, zpow_natCast, zpow_natCast]
    rw [floatValue_of_toNat (floatConvert_toNat h1 h2) (by omega) (by omega) (fraction_lt h1 h2), hexp, hpow]
    push_cast [Nat.cast_sub h1]
    field_simp
    ring

/-- Settles O23: both values are those of the patterns' fields. -/
theorem floatResultIsTheQuotient : Obligations.FloatResultIsTheQuotient := by
  unfold Obligations.FloatResultIsTheQuotient
  exact fun w => ⟨floatValue_floatAssemble w, floatValue_floatConvert w⟩

/-- Settles O24: the result's number is `floatConvert_toNat`, and the fields are read off it. -/
theorem floatResultFields : Obligations.FloatResultFields := by
  unfold Obligations.FloatResultFields
  refine ⟨rfl, fun w k h1 h2 => ?_⟩
  have hk := lt_of_pow_le_toNat h1
  have hb := floatConvert_toNat h1 h2
  have hf := fraction_lt h1 h2
  exact ⟨sign_of_toNat hb (by omega) hf, exponent_of_toNat hb (by omega) hf, fraction_of_toNat hb hf⟩

/-! ### Bounds (R164) -/

theorem floatValue_floatConvert_lt_iff (v w : Word) :
    floatValue (floatConvert v) < floatValue (floatConvert w) ↔ v.toNat < w.toNat := by
  rw [floatValue_floatConvert, floatValue_floatConvert, div_lt_div_iff_of_pos_right (by positivity), Nat.cast_lt]

theorem floatConvert_injective : Function.Injective floatConvert := fun v w h => by
  have hlt := floatValue_floatConvert_lt_iff v w
  have hgt := floatValue_floatConvert_lt_iff w v
  rw [h, lt_self_iff_false, false_iff] at hlt hgt
  bv_omega

/-- Settles O25: the order of the values is the order of the words, so each part is one about the words `0 .. 2^32 - 1`. -/
theorem floatResultBounds : Obligations.FloatResultBounds := by
  unfold Obligations.FloatResultBounds
  refine ⟨fun w => ⟨?_, ?_, ?_⟩, ?_, fun v w => (floatValue_floatConvert_lt_iff v w).mpr, fun v w h => floatConvert_injective h,
    fun x => ⟨?_, ?_⟩⟩
  · rw [floatValue_floatConvert]
    positivity
  · rw [floatValue_floatConvert, div_lt_one (by positivity)]
    exact_mod_cast w.isLt
  · rw [← not_lt, floatValue_floatConvert_lt_iff]
    bv_omega
  · rw [floatValue_floatConvert, show (0xFFFFFFFF : Word).toNat = 2 ^ 32 - 1 from rfl]
    norm_num
  · rintro ⟨w, rfl⟩
    exact ⟨w.toNat, w.isLt, floatValue_floatConvert w⟩
  · rintro ⟨k, hk, rfl⟩
    exact ⟨BitVec.ofNat 32 k, by rw [floatValue_floatConvert, BitVec.toNat_ofNat, Nat.mod_eq_of_lt hk]⟩

/-! ### The float commands (R169, 44_mother.md R214) -/

/-- An MG command of a block with legal parameters is its result under the preamble. -/
theorem exec_mgCommand {i : Instr} (hi : mgCommand i = true) {s : State} (hwf : s.cfg.wf = true) :
    exec i s = .next (runCommand i s (commandResult i s)) := by
  obtain ⟨t, ht⟩ := exec_total hwf i
  obtain ⟨rfl, -⟩ | ⟨-, rfl⟩ := exec_next ht
  · cases hi
  · exact ht

/-- The machine's MG draw is the pseudocode's. -/
theorem mgDraw_eq (s : State) : mgDraw s = (mgDrawnWord s, afterMgDraw s) := by
  rw [mgDrawnWord, afterMgDraw, mgDrawLoop_eq_motherNext]
  rfl

/-- Settles O35: the answer is the converted word of one draw (`mtDraw_eq`), and O23 gives its value. -/
theorem mtNextFloatResult : Obligations.MtNextFloatResult := by
  unfold Obligations.MtNextFloatResult
  intro s hs hseeded
  refine ⟨_, ?_, rfl, floatValue_floatConvert _⟩
  rw [exec_mtCommand rfl, commandResult, hseeded, ifSeeded_true, runCommand_completes hs, mtDraw_eq, respond_okResponse]

/-- Settles O42: as O35, with the draw of the MG unit (`mgDraw_eq`). -/
theorem mgNextFloatResult : Obligations.MgNextFloatResult := by
  unfold Obligations.MgNextFloatResult
  intro s hs hseeded hwf
  refine ⟨_, ?_, rfl, floatValue_floatConvert _⟩
  rw [exec_mgCommand rfl hwf, commandResult, hseeded, ifSeeded_true, runCommand_completes hs, mgDraw_eq, respond_okResponse]

end Sys2Proof.Machine
end

/-! ## The range mapper (43_range_mapper.md): the rounded product, the biased map, the rejection limit, and the range commands

The rounding is described once, by the number of units in the 53rd place it keeps (`roundedUnits`); the bounds on the biased map
follow from how far that number is from the product, and both biased commands from those bounds. -/

section
namespace Sys2Proof.Machine

/-! ### The rounded product (R181) -/

/-- The rounded number of units `2^s` in `p`: the nearer neighbour, on a tie the even one. -/
def roundedUnits (p s : Nat) : Nat :=
  if p % 2 ^ s > 2 ^ (s - 1) ∨ (p % 2 ^ s = 2 ^ (s - 1) ∧ p / 2 ^ s % 2 = 1) then p / 2 ^ s + 1 else p / 2 ^ s

theorem roundProduct_of_lt {p : Nat} (h : p < 2 ^ 53) : roundProduct p = p := if_pos h

/-- The unit in the 53rd place of a product of `53 + s` bits is `2^s`. -/
theorem roundProduct_eq_units {p s : Nat} (hs : 1 ≤ s) (h1 : 2 ^ (52 + s) ≤ p) (h2 : p < 2 ^ (53 + s)) :
    roundProduct p = roundedUnits p s * 2 ^ s := by
  have hp : 2 ^ 53 ≤ p := (Nat.pow_le_pow_right (by omega) (by omega)).trans h1
  have hunit : bitlen p - 53 = s := by
    rw [bitlen_eq h1 (by rwa [Nat.add_right_comm])]
    omega
  rw [roundProduct, if_neg (not_lt.mpr hp), hunit]
  rfl

/-- A product is left as it is or rounded to units in its 53rd place. -/
theorem roundProduct_cases (p : Nat) :
    roundProduct p = p ∨ ∃ s, 1 ≤ s ∧ 2 ^ (52 + s) ≤ p ∧ roundProduct p = roundedUnits p s * 2 ^ s := by
  rcases lt_or_ge p (2 ^ 53) with hp | hp
  · exact .inl (roundProduct_of_lt hp)
  · have hlog : 53 ≤ Nat.log2 p := (Nat.le_log2 (by omega)).mpr hp
    have h1 : 2 ^ (52 + (Nat.log2 p - 52)) ≤ p := by
      rw [Nat.add_sub_cancel' (by omega)]
      exact Nat.log2_self_le (by omega)
    have h2 : p < 2 ^ (53 + (Nat.log2 p - 52)) := by
      rw [show 53 + (Nat.log2 p - 52) = Nat.log2 p + 1 by omega]
      exact Nat.lt_log2_self
    exact .inr ⟨Nat.log2 p - 52, by omega, h1, roundProduct_eq_units (by omega) h1 h2⟩

/-- The rounded number of units is a nearest one, and of two nearest the even one. -/
theorem roundedUnits_nearest_even (p : Nat) {s : Nat} (hs : 1 ≤ s) :
    2 * p ≤ 2 * (roundedUnits p s * 2 ^ s) + 2 ^ s ∧ 2 * (roundedUnits p s * 2 ^ s) ≤ 2 * p + 2 ^ s ∧
      ((2 * p = 2 * (roundedUnits p s * 2 ^ s) + 2 ^ s ∨ 2 * (roundedUnits p s * 2 ^ s) = 2 * p + 2 ^ s) →
        roundedUnits p s % 2 = 0) := by
  have hhalf : 2 ^ (s - 1) * 2 = 2 ^ s := Nat.two_pow_pred_mul_two hs
  have hdiv : p / 2 ^ s * 2 ^ s + p % 2 ^ s = p := Nat.div_add_mod' p (2 ^ s)
  have hlow : p % 2 ^ s < 2 ^ s := Nat.mod_lt p (Nat.two_pow_pos s)
  have hup : (p / 2 ^ s + 1) * 2 ^ s = p / 2 ^ s * 2 ^ s + 2 ^ s := Nat.succ_mul _ _
  unfold roundedUnits
  split
  case isTrue hround => omega
  case isFalse hround => omega

/-- A whole number of units is not rounded. -/
theorem roundedUnits_mul_of_dvd {p s : Nat} (h : 2 ^ s ∣ p) : roundedUnits p s * 2 ^ s = p := by
  have hlow : p % 2 ^ s = 0 := Nat.mod_eq_zero_of_dvd h
  have hhalf : 0 < 2 ^ (s - 1) := Nat.two_pow_pos _
  rw [roundedUnits, if_neg (by omega), Nat.div_mul_cancel h]

/-- Settles O27: below `2^53` nothing is rounded, and above it the number of units is `roundedUnits`. -/
theorem productRoundsToNearestEven : Obligations.ProductRoundsToNearestEven := by
  unfold Obligations.ProductRoundsToNearestEven
  intro p _
  exact ⟨roundProduct_of_lt, fun s hs h1 h2 =>
    ⟨roundedUnits p s, roundProduct_eq_units hs h1 h2, roundedUnits_nearest_even p hs⟩⟩

/-! ### The biased map (R182) -/

/-- Rounding adds at most half a unit, and a product that is rounded has an interval of more than a unit, so the rounded product stays
below `n * 2^32`. -/
theorem biasedMap_lt (w : Word) {n : Nat} (hn : 1 ≤ n) : biasedMap w n < n := by
  have hw : w.toNat * n + n ≤ 2 ^ 32 * n := by
    rw [← Nat.succ_mul]
    exact Nat.mul_le_mul_right n w.isLt
  rw [biasedMap, Nat.div_lt_iff_lt_mul (Nat.two_pow_pos 32)]
  obtain h | ⟨s, hs, hp, h⟩ := roundProduct_cases (w.toNat * n)
  · omega
  · obtain ⟨-, hup, -⟩ := roundedUnits_nearest_even (w.toNat * n) hs
    have hunit : 2 ^ 52 * 2 ^ s ≤ w.toNat * n := by rwa [← Nat.pow_add]
    omega

/-- Below `2^53` the biased map is multiply-and-shift. -/
theorem biasedMap_of_lt {w : Word} {n : Nat} (h : w.toNat * n < 2 ^ 53) : biasedMap w n = w.toNat * n / 2 ^ 32 := by
  rw [biasedMap, roundProduct_of_lt h]

/-- A product with a power of two has the 32 significant bits of the word, so it is a whole number of units. -/
theorem roundProduct_mul_two_pow (w : Word) (e : Nat) : roundProduct (w.toNat * 2 ^ e) = w.toNat * 2 ^ e := by
  obtain h | ⟨s, -, hp, h⟩ := roundProduct_cases (w.toNat * 2 ^ e)
  · exact h
  · have hlt : 2 ^ (52 + s) < 2 ^ (32 + e) := by
      rw [Nat.pow_add 2 32]
      exact hp.trans_lt (Nat.mul_lt_mul_of_pos_right w.isLt (Nat.two_pow_pos e))
    have hse : 52 + s < 32 + e := (Nat.pow_lt_pow_iff_right (by omega)).mp hlt
    rw [h, roundedUnits_mul_of_dvd (Dvd.dvd.mul_left (Nat.pow_dvd_pow 2 (by omega)) _)]

theorem biasedMap_two_pow (w : Word) {e : Nat} (he : e ≤ 31) : biasedMap w (2 ^ e) = w.toNat / 2 ^ (32 - e) := by
  have hpow : 2 ^ 32 = 2 ^ (32 - e) * 2 ^ e := by rw [← Nat.pow_add, Nat.sub_add_cancel (by omega)]
  rw [biasedMap, roundProduct_mul_two_pow, hpow, Nat.mul_div_mul_right _ _ (Nat.two_pow_pos e)]

/-- Settles O28: the parts are the lemmas above; an interval up to `2^21` keeps the product below `2^53`. -/
theorem biasedMapProperties : Obligations.BiasedMapProperties := by
  unfold Obligations.BiasedMapProperties
  refine ⟨fun w n hn _ => biasedMap_lt w hn, fun w n h => biasedMap_of_lt h, fun w n hn => biasedMap_of_lt ?_,
    by decide +kernel, fun w e he => biasedMap_two_pow w he⟩
  calc w.toNat * n ≤ w.toNat * 2 ^ 21 := Nat.mul_le_mul_left _ hn
    _ < 2 ^ 53 := by omega

/-! ### The rejection limit (R188, R189) -/

theorem rejectionLimitOf_add_mod (n : Nat) : rejectionLimitOf n + 2 ^ 32 % n = 2 ^ 32 := Nat.div_add_mod' _ _

theorem dvd_rejectionLimitOf (n : Nat) : n ∣ rejectionLimitOf n := Nat.dvd_mul_left _ _

theorem rejectionLimitOf_div {n : Nat} (hn : 0 < n) : rejectionLimitOf n / n = 2 ^ 32 / n := Nat.mul_div_cancel _ hn

theorem le_rejectionLimitOf {n m : Nat} (hdvd : n ∣ m) (hm : m ≤ 2 ^ 32) : m ≤ rejectionLimitOf n :=
  calc m = m / n * n := (Nat.div_mul_cancel hdvd).symm
    _ ≤ 2 ^ 32 / n * n := Nat.mul_le_mul_right n (Nat.div_le_div_right hm)

theorem rejectionLimitOf_eq_two_pow_iff (n : Nat) : rejectionLimitOf n = 2 ^ 32 ↔ n ∣ 2 ^ 32 :=
  ⟨fun h => h ▸ dvd_rejectionLimitOf n, fun h => Nat.div_mul_cancel h⟩

theorem dvd_two_pow_iff {n : Nat} (hn : n ≤ 2 ^ 31) : n ∣ 2 ^ 32 ↔ ∃ e : Nat, n = 2 ^ e := by
  rw [Nat.dvd_prime_pow Nat.prime_two]
  constructor
  · rintro ⟨e, -, rfl⟩
    exact ⟨e, rfl⟩
  · rintro ⟨e, rfl⟩
    have he : e ≤ 31 := (Nat.pow_le_pow_iff_right (by omega)).mp hn
    exact ⟨e, by omega, rfl⟩

/-- Settles O29: the parts are the lemmas above; the closed forms follow from the division with remainder. -/
theorem rejectionLimitIsTheLargestMultiple : Obligations.RejectionLimitIsTheLargestMultiple := by
  unfold Obligations.RejectionLimitIsTheLargestMultiple
  refine ⟨fun n h1 h2 => ?_, by decide +kernel⟩
  have hsum := rejectionLimitOf_add_mod n
  have hmod : 2 ^ 32 % n < n := Nat.mod_lt _ h1
  exact ⟨dvd_rejectionLimitOf n, rejectionLimitOf_le n, fun m => le_rejectionLimitOf, rfl, by omega, by omega,
    rejectionLimitOf_eq_two_pow_iff n, dvd_two_pow_iff h2⟩

theorem card_rejected (n : Nat) : ((Finset.range (2 ^ 32)).filter fun w => rejectionLimitOf n ≤ w).card = 2 ^ 32 % n := by
  have hIco : (Finset.range (2 ^ 32)).filter (fun w => rejectionLimitOf n ≤ w) = Finset.Ico (rejectionLimitOf n) (2 ^ 32) := by
    ext w
    rw [Finset.mem_filter, Finset.mem_range, Finset.mem_Ico, and_comm]
  have hsum := rejectionLimitOf_add_mod n
  rw [hIco, Nat.card_Ico]
  omega

/-- The limit is a whole number of runs of `n` words, each with every residue once. -/
theorem card_accepted_of_residue {n r : Nat} (hr : r < n) :
    ((Finset.range (rejectionLimitOf n)).filter fun w => w % n = r).card = 2 ^ 32 / n := by
  have hn : 0 < n := Nat.zero_lt_of_lt hr
  have hcount := Nat.count_modEq_card (rejectionLimitOf n) hn r
  rw [Nat.count_eq_card_filter_range, Nat.mod_eq_zero_of_dvd (dvd_rejectionLimitOf n), if_neg (Nat.not_lt_zero _), Nat.add_zero,
    rejectionLimitOf_div hn] at hcount
  simpa only [Nat.ModEq, Nat.mod_eq_of_lt hr] using hcount

/-- Settles O30: the rejected words are counted by `card_rejected`, the accepted ones by `card_accepted_of_residue`. -/
theorem acceptedWordsAreUnbiased : Obligations.AcceptedWordsAreUnbiased := by
  unfold Obligations.AcceptedWordsAreUnbiased
  intro n h1 h2
  have hmod : 2 ^ 32 % n < n := Nat.mod_lt _ h1
  exact ⟨card_rejected n, hmod, by omega, fun e he => Nat.mod_eq_zero_of_dvd ((dvd_two_pow_iff h2).mpr ⟨e, he⟩),
    fun r hr => card_accepted_of_residue hr⟩

/-! ### The biased range commands (R185, 44_mother.md R215) -/

/-- The value of a biased range command is `min + BiasedMap(w, I)`, which does not wrap and lies in the range. -/
theorem exists_biasedResult {min max : Word} (h : min.toInt ≤ max.toInt) (w : Word) :
    ∃ v : Word, biasedResult min w (max.toInt - min.toInt + 1).toNat = 0#32 ++ v ∧
      v.toInt = min.toInt + biasedMap w (max.toInt - min.toInt + 1).toNat ∧ min.toInt ≤ v.toInt ∧ v.toInt ≤ max.toInt := by
  have hlt := biasedMap_lt w (n := (max.toInt - min.toInt + 1).toNat) (by omega)
  have hv := toInt_add_ofNat (min := min) (max := max) (q := biasedMap w (max.toInt - min.toInt + 1).toNat) (by omega)
  exact ⟨_, wordResult_eq_append _, hv, by omega, by omega⟩

/-- Settles O36: one draw (`mtDraw_eq`), and the value is `exists_biasedResult`. -/
theorem mtBiasedRangeResult : Obligations.MtBiasedRangeResult := by
  unfold Obligations.MtBiasedRangeResult
  intro min max s hs hseeded hle hwidth
  obtain ⟨v, hv, hbounds⟩ := exists_biasedResult hle (mtDrawnWord s)
  refine ⟨v, ?_, hbounds⟩
  rw [exec_mtCommand rfl, commandResult, hseeded, ifSeeded_true, withInterval_some (rangeCheck_of_accepted hle hwidth),
    runCommand_completes hs, mtDraw_eq, respond_okResponse, hv]

/-- Settles O43: as O36, with the draw of the MG unit (`mgDraw_eq`). -/
theorem mgBiasedRangeResult : Obligations.MgBiasedRangeResult := by
  unfold Obligations.MgBiasedRangeResult
  intro min max s hs hseeded hwf hle hwidth
  obtain ⟨v, hv, hbounds⟩ := exists_biasedResult hle (mgDrawnWord s)
  refine ⟨v, ?_, hbounds⟩
  rw [exec_mgCommand rfl hwf, commandResult, hseeded, ifSeeded_true, withInterval_some (rangeCheck_of_accepted hle hwidth),
    runCommand_completes hs, mgDraw_eq, respond_okResponse, hv]

/-! ### Batches of the rejection loop (R190, 70_reset_and_hazards.md R294) -/

/-- Settles O39: each draw of the shorter batch is the same draw of the longer one. -/
theorem rejectionBatchesJoin : Obligations.RejectionBatchesJoin := by
  unfold Obligations.RejectionBatchesJoin
  intro n m s
  induction n generalizing s with
  | zero => rw [Nat.zero_add, drawBelowLimit]
  | succ n ih =>
    rw [Nat.succ_add, drawBelowLimit, drawBelowLimit]
    by_cases h : (mtDraw s).1.toNat < (mtDraw s).2.rejectionLimit.toNat
    · rw [if_pos h, if_pos h]
    · rw [if_neg h, if_neg h, ih]

/-- A batch whose every word is rejected finds none and has made all its draws. -/
theorem drawBelowLimit_of_all_rejected {n : Nat} {s : State}
    (hrej : ∀ j < n, s.rejectionLimit.toNat ≤ (mtDrawnWord (afterMtDraws j s)).toNat) :
    drawBelowLimit n s = (none, afterMtDraws n s) := by
  induction n generalizing s with
  | zero => rfl
  | succ n ih =>
    simp only [drawBelowLimit, mtDraw_eq]
    refine (if_neg (not_lt.mpr (hrej 0 (Nat.succ_pos n)))).trans ?_
    exact ih fun j hj => hrej (j + 1) (Nat.succ_lt_succ hj)

/-- The loop of R190 on the cached interval, when the first `k` words are rejected. -/
theorem drawBelowLimit_cacheInterval_of_all_rejected {n k : Nat} {s : State} (hs : s.CacheConsistent) (hn : 1 ≤ n)
    (hrej : ∀ j < k, rejectionLimitOf n ≤ (mtDrawnWord (afterMtDraws j s)).toNat) :
    drawBelowLimit k (s.cacheInterval n) = (none, (afterMtDraws k s).withCache n) := by
  rw [cacheInterval_eq_withCache hs hn, drawBelowLimit_of_all_rejected, afterMtDraws_withCache]
  simpa only [afterMtDraws_withCache, mtDrawnWord_withCache, withCache_rejectionLimit] using hrej

/-- A command that goes on with the interval `n` cached. Said of any `t`, so that no proof evaluates the draws of a whole batch. -/
theorem runCommand_waits_withCache {s : State} (h : s.halt = false) (i : Instr) (t : State) (n : Nat) :
    runCommand i s (.waits (t.withCache n)) =
      { t with
        lastInterval := BitVec.ofNat 32 n, rejectionLimit := BitVec.ofNat 33 (rejectionLimitOf n), executing := some i } :=
  runCommand_waits h i _

/-- Settles O38: the batch is `drawBelowLimit_cacheInterval_of_all_rejected`. -/
theorem mtExactRangeGoesOn : Obligations.MtExactRangeGoesOn := by
  unfold Obligations.MtExactRangeGoesOn
  intro min max s hh hseeded hs hle hwidth n hrej
  have hcheck : rangeCheck min max = some n := rangeCheck_of_accepted hle hwidth
  obtain ⟨hn, -⟩ := rangeCheck_bounds hcheck
  have hloop := drawBelowLimit_cacheInterval_of_all_rejected hs hn hrej
  rw [exec_mtCommand rfl, commandResult, hseeded, ifSeeded_true, withInterval_some hcheck, hloop]
  simp only [runCommand_waits_withCache hh]

end Sys2Proof.Machine
end

/-! ## The MG unit (44_mother.md): MG_INIT, MG_NEXT_WORD and the fixed points of the draw

The draw is tied to the pseudocode by `mgDraw_eq` above. A history that a draw leaves has four equal words, so the fixed points are the
solutions of one equation between that word and the carry (`motherNext_equalWords_iff`). -/

section
namespace Sys2Proof.Machine

/-! ### MG_INIT (R211) -/

/-- The machine's discarded draws are the pseudocode's. -/
theorem mgDiscard_eq_afterMgDraws (n : Nat) (s : State) : mgDiscard n s = afterMgDraws n s := by
  induction n generalizing s with
  | zero => rfl
  | succ n ih => rw [mgDiscard, mgDraw_eq, ih, afterMgDraws]

theorem exec_mgInit (seed : Word) {s : State} (hs : s.halt = false) (hwf : s.cfg.wf = true) :
    exec (.mgInit seed) s = .next (answered (s.mgInit seed) 0) := by
  rw [exec_mgCommand rfl hwf, commandResult, runCommand_completes hs, respond_okResponse, noResult]

/-- Settles O40: the five words are those of `motherSeed`, and the warm-up is `mgDiscard_eq_afterMgDraws`. -/
theorem mgInitResult : Obligations.MgInitResult := by
  unfold Obligations.MgInitResult
  intro seed s hs hwf f
  rw [exec_mgInit seed hs hwf, State.mgInit, mgDiscard_eq_afterMgDraws]
  rfl

/-! ### MG_NEXT_WORD (R212) -/

/-- Settles O41: the machine's draw is the pseudocode's (`mgDraw_eq`), and the answer is its word with zeros above it. -/
theorem mgNextWordResult : Obligations.MgNextWordResult := by
  unfold Obligations.MgNextWordResult
  intro s hs hseeded hwf
  rw [exec_mgCommand rfl hwf, commandResult, hseeded, ifSeeded_true, runCommand_completes hs, mgDraw_eq, respond_okResponse,
    wordResult_eq_append]

/-! ### The fixed points of the draw (R213) -/

theorem history_eq_iff (g h : History) :
    g = h ↔ g[0] = h[0] ∧ g[1] = h[1] ∧ g[2] = h[2] ∧ g[3] = h[3] ∧ g[4] = h[4] := by
  refine ⟨fun heq => by simp [heq], fun ⟨h0, h1, h2, h3, h4⟩ => Vector.ext fun i hi => ?_⟩
  match i, hi with
  | 0, _ => exact h0
  | 1, _ => exact h1
  | 2, _ => exact h2
  | 3, _ => exact h3
  | 4, _ => exact h4

/-- A sum that fits two words has the halves `x` and `y` iff it is the number they write. -/
theorem ofNat_halves_eq_iff {n : Nat} (hn : n < 2 ^ 64) (x y : Word) :
    BitVec.ofNat 32 (n % 2 ^ 32) = x ∧ BitVec.ofNat 32 (n / 2 ^ 32) = y ↔ n = x.toNat + 2 ^ 32 * y.toNat := by
  rw [← BitVec.toNat_inj, ← BitVec.toNat_inj, BitVec.toNat_ofNat, BitVec.toNat_ofNat]
  omega

/-- A draw moves the words by one place, so a history it leaves has four equal words. -/
theorem equalWords_of_motherNext_eq_self {c : Config} {h : History} (hfix : motherNext c h = h) :
    ∃ x y : Word, h = #v[x, x, x, x, y] := by
  obtain ⟨-, h1, h2, h3, -⟩ := motherNext_getElem c h
  rw [hfix] at h1 h2 h3
  exact ⟨h[0], h[4], (history_eq_iff _ _).mpr ⟨rfl, h1, h2.trans h1, h3.trans (h2.trans h1), rfl⟩⟩

/-- With weights that meet R7, a draw leaves four words `x` and the carry `y` as they were iff its sum is the number they write. -/
theorem motherNext_equalWords_iff {c : Config} (hwf : c.wf = true) (x y : Word) :
    motherNext c #v[x, x, x, x, y] = #v[x, x, x, x, y] ↔
      (c.mgW0.toNat + c.mgW1.toNat + c.mgW2.toNat + c.mgW3.toNat) * x.toNat + y.toNat = x.toNat + 2 ^ 32 * y.toNat := by
  have hfit : c.mgW0.toNat + c.mgW1.toNat + c.mgW2.toNat + c.mgW3.toNat + 1 ≤ 2 ^ 32 := of_decide_eq_true hwf
  have hlt := motherSum_lt c #v[x, x, x, x, y]
  have hsum : motherSum c #v[x, x, x, x, y] =
      (c.mgW0.toNat + c.mgW1.toNat + c.mgW2.toNat + c.mgW3.toNat) * x.toNat + y.toNat := by
    change c.mgW3.toNat * x.toNat + c.mgW2.toNat * x.toNat + c.mgW1.toNat * x.toNat + c.mgW0.toNat * x.toNat + y.toNat = _
    ring
  rw [← hsum, ← ofNat_halves_eq_iff (by omega), history_eq_iff]
  exact ⟨fun ⟨h0, _, _, _, h4⟩ => ⟨h0, h4⟩, fun ⟨h0, h4⟩ => ⟨h0, rfl, rfl, rfl, h4⟩⟩

/-- The equation of a fixed point with the default weights is `2111119493 * x = (2^32 - 1) * y`, and the two factors are coprime. -/
theorem exists_multiples_of_defaultFixedPoint {x y : Nat} (heq : 2111119494 * x + y = x + 2 ^ 32 * y) :
    ∃ k, x = 4294967295 * k ∧ y = 2111119493 * k := by
  have hprod : 2111119493 * x = 4294967295 * y := by linarith
  have hcop : Nat.Coprime 4294967295 2111119493 := by norm_num
  obtain ⟨k, rfl⟩ : 4294967295 ∣ x := hcop.dvd_of_dvd_mul_left ⟨y, hprod⟩
  exact ⟨k, rfl, by linarith⟩

/-- Words are below `2^32`, so the multiple is 0 or 1. -/
theorem defaultFixedPoint_iff (x y : Word) :
    2111119494 * x.toNat + y.toNat = x.toNat + 2 ^ 32 * y.toNat ↔ x = 0 ∧ y = 0 ∨ x = 0xFFFFFFFF ∧ y = 2111119493 := by
  constructor
  · intro heq
    obtain ⟨k, hx, hy⟩ := exists_multiples_of_defaultFixedPoint heq
    clear heq
    bv_omega
  · rintro (⟨rfl, rfl⟩ | ⟨rfl, rfl⟩) <;> rfl

theorem motherNext_default_eq_self_iff (h : History) :
    motherNext Config.default h = h ↔
      h = #v[0, 0, 0, 0, 0] ∨ h = #v[0xFFFFFFFF, 0xFFFFFFFF, 0xFFFFFFFF, 0xFFFFFFFF, 2111119493] := by
  have hiff (x y : Word) := (motherNext_equalWords_iff (c := Config.default) rfl x y).trans (defaultFixedPoint_iff x y)
  constructor
  · intro hfix
    obtain ⟨x, y, rfl⟩ := equalWords_of_motherNext_eq_self hfix
    obtain ⟨rfl, rfl⟩ | ⟨rfl, rfl⟩ := (hiff x y).mp hfix
    · exact .inl rfl
    · exact .inr rfl
  · rintro (rfl | rfl)
    · exact (hiff _ _).mpr (.inl ⟨rfl, rfl⟩)
    · exact (hiff _ _).mpr (.inr ⟨rfl, rfl⟩)

/-- Each fixed point begins with a word twice, and the seeding recurrence sends neither 0 nor all ones to itself. -/
theorem motherNext_default_motherSeed_ne (seed : Word) :
    motherNext Config.default (motherSeed Config.default seed) ≠ motherSeed Config.default seed := by
  intro hfix
  have hseed : (motherSeed Config.default seed)[1] = motherSeedNext Config.default (motherSeed Config.default seed)[0] := rfl
  obtain heq | heq := (motherNext_default_eq_self_iff _).mp hfix
  · rw [heq] at hseed
    exact absurd hseed (by decide)
  · rw [heq] at hseed
    exact absurd hseed (by decide)

/-- Settles O22: the draw's fixed points are `motherNext_default_eq_self_iff`, and with no warm-up MG_INIT leaves the words of
`motherSeed`. -/
theorem motherFixedPointsAreNotSeeded : Obligations.MotherFixedPointsAreNotSeeded := by
  unfold Obligations.MotherFixedPointsAreNotSeeded
  refine ⟨fun h => ?_, fun seed s t hcfg hs hexec => ?_⟩
  · rw [mgDrawLoop_eq_motherNext, motherNext_default_eq_self_iff]
  · have hwf : s.cfg.wf = true := by rw [hcfg]; rfl
    rw [exec_mgInit seed hs hwf] at hexec
    cases hexec
    have hhist : (answered (s.mgInit seed) 0).hist = motherSeed Config.default seed := by
      rw [answered, State.mgInit, hcfg]
      rfl
    have hcfg' : (answered (s.mgInit seed) 0).cfg = Config.default := (mgInit_cfg s seed).trans hcfg
    rw [hhist, hcfg', mgDrawLoop_eq_motherNext]
    exact motherNext_default_motherSeed_ne seed

end Sys2Proof.Machine
end

/-! ## Faults and the halt (60_exceptions.md): what raises a fault, what a halted block refuses, and how it leaves the halt

A fault or a refusal is read off a command's result under the preamble (`exec_of_faults`, `exec_of_halted`); what a step of a halted block
can write is said once, in `step_of_halted`. -/

section
namespace Sys2Proof.Machine

/-! ### A reserved opcode (R245) -/

/-- A presented word with a reserved opcode is not executed; the block answers it as an illegal command. -/
theorem step_reservedOpcode {s : State} {w : CommandWord} {rest : List HostInput} (he : s.executing = none)
    (hi : s.inputs = .command w :: rest)
    (hop : commandOp w ∉ [0x00, 0x01, 0x02, 0x03, 0x04, 0x05, 0x10, 0x12, 0x13, 0x14, 0x20]) :
    step s = .next { s with inputs := rest }.illegalCommand := by
  have hd : decode w = .error (.reservedOpcode (commandOp w)) := (reservedOpcodesAreRejected w).1 hop
  exact step_of_settled ((nextTurn_idle_command he hi).trans (by rw [takeCommand, hd]))

theorem illegalCommand_running {s : State} (h : s.halt = false) : s.illegalCommand = faultEntry s 1 :=
  if_neg (by simp [h])

theorem illegalCommand_halted {s : State} (h : s.halt = true) : s.illegalCommand = s.refuseHalted :=
  if_pos h

/-- Settles O8: the two branches of `State.illegalCommand`. -/
theorem reservedOpcodeFaults : Obligations.ReservedOpcodeFaults := by
  unfold Obligations.ReservedOpcodeFaults
  intro s w rest he hi hop
  rw [step_reservedOpcode he hi hop]
  constructor
  · exact fun hs => congrArg Host.Outcome.next (illegalCommand_running hs)
  · exact fun hs => congrArg Host.Outcome.next (illegalCommand_halted hs)

/-! ### Every command but STAT runs under the preamble (R120) -/

theorem mtCommand_or_mgCommand {i : Instr} (h : i ≠ .stat) : mtCommand i = true ∨ mgCommand i = true := by
  cases i with
  | stat => exact absurd rfl h
  | mgInit => exact .inr rfl
  | mgNextWord => exact .inr rfl
  | mgNextFloat => exact .inr rfl
  | mgBiasedRange => exact .inr rfl
  | _ => exact .inl rfl

/-- A command other than STAT is its result under the preamble; one of the MG unit needs legal parameters (00_scope.md R7). -/
theorem exec_of_ne_stat {i : Instr} {s : State} (hi : i ≠ .stat) (hwf : mgCommand i = true → s.cfg.wf = true) :
    exec i s = .next (runCommand i s (commandResult i s)) := by
  obtain hmt | hmg := mtCommand_or_mgCommand hi
  · exact exec_mtCommand hmt s
  · exact exec_mgCommand hmg (hwf hmg)

theorem raiseFault_eq_faultEntry (s : State) (c : FaultCode) : s.raiseFault c = faultEntry s c.bits := rfl

/-- A command whose result is a fault does what R242 says of it. -/
theorem exec_of_faults {i : Instr} {s : State} {c : FaultCode} (hs : s.halt = false) (hi : i ≠ .stat)
    (hwf : mgCommand i = true → s.cfg.wf = true) (hc : commandResult i s = .faults c) :
    exec i s = .next (faultEntry s c.bits) := by
  rw [exec_of_ne_stat hi hwf, hc, runCommand_faults hs, raiseFault_eq_faultEntry]

/-- While halted a command other than STAT is refused (R244). -/
theorem exec_of_halted {i : Instr} {s : State} (hs : s.halt = true) (hi : i ≠ .stat)
    (hwf : mgCommand i = true → s.cfg.wf = true) : exec i s = .next s.refuseHalted := by
  rw [exec_of_ne_stat hi hwf, runCommand_halted hs]

/-! ### UNSEEDED (R246) -/

theorem mtCommand_of_mtDrawing {i : Instr} (h : mtDrawing i = true) : mtCommand i = true := by
  cases i <;> trivial

theorem mgCommand_of_mgDrawing {i : Instr} (h : mgDrawing i = true) : mgCommand i = true := by
  cases i <;> trivial

/-- A drawing command of the MT unit asks for that unit's flag before it looks at its operands. -/
theorem commandResult_mtDrawing {i : Instr} (hi : mtDrawing i = true) (s : State) :
    ∃ r, commandResult i s = ifSeeded s.mtSeeded r := by
  cases i with
  | mtNextWord => exact ⟨_, rfl⟩
  | mtNextFloat => exact ⟨_, rfl⟩
  | mtBiasedRange min max => exact ⟨_, rfl⟩
  | mtExactRange min max => exact ⟨_, rfl⟩
  | _ => cases hi

/-- A drawing command of the MG unit asks for that unit's flag before it looks at its operands. -/
theorem commandResult_mgDrawing {i : Instr} (hi : mgDrawing i = true) (s : State) :
    ∃ r, commandResult i s = ifSeeded s.mgSeeded r := by
  cases i with
  | mgNextWord => exact ⟨_, rfl⟩
  | mgNextFloat => exact ⟨_, rfl⟩
  | mgBiasedRange min max => exact ⟨_, rfl⟩
  | _ => cases hi

/-- Settles O45: the first thing a drawing command asks for is its own unit's flag. -/
theorem unseededUnitFaults : Obligations.UnseededUnitFaults := by
  unfold Obligations.UnseededUnitFaults
  intro i s hs
  constructor
  · intro hi hseeded
    have hmt := mtCommand_of_mtDrawing hi
    obtain ⟨r, hr⟩ := commandResult_mtDrawing hi s
    rw [hseeded, ifSeeded_false] at hr
    exact exec_of_faults hs (ne_stat_of_mtCommand hmt) (fun hmg => absurd hmg (by simp [mgCommand_of_mtCommand hmt])) hr
  · intro hi hseeded hwf
    obtain ⟨r, hr⟩ := commandResult_mgDrawing hi s
    rw [hseeded, ifSeeded_false] at hr
    exact exec_of_faults hs (ne_stat_of_mgCommand (mgCommand_of_mgDrawing hi)) (fun _ => hwf) hr

/-! ### Malformed operands (R180, R124, R247) -/

/-- A malformed range has no interval. -/
theorem rangeCheck_of_malformed {min max : Word} (h : max.toInt < min.toInt ∨ max.toInt - min.toInt ≥ 2 ^ 31) :
    rangeCheck min max = none := by
  rw [Option.eq_none_iff_forall_ne_some]
  intro n hn
  rw [rangeCheck_eq_some, sval_eq_toInt, sval_eq_toInt] at hn
  omega

/-- A length below 1 has no number of words. -/
theorem lengthCheck_of_lt_one {length : Word} (h : length.toInt < 1) : lengthCheck length = none :=
  if_pos (by rwa [sval_eq_toInt])

/-- A range command of a seeded unit hands its effect no malformed range. -/
theorem ifSeeded_withInterval_malformed {b : Bool} {min max : Word} (hseeded : b = true)
    (h : max.toInt < min.toInt ∨ max.toInt - min.toInt ≥ 2 ^ 31) (f : Nat → CommandResult) :
    ifSeeded b (withInterval min max f) = .faults .precondRange := by
  rw [hseeded, ifSeeded_true, withInterval_none (rangeCheck_of_malformed h)]

/-- Settles O46: neither check hands on an operand that is malformed, so that the command's result is the fault. -/
theorem malformedOperandsFault : Obligations.MalformedOperandsFault := by
  unfold Obligations.MalformedOperandsFault
  intro min max s hs
  refine ⟨fun hrange => ⟨fun hseeded => ⟨?_, ?_⟩, fun hseeded hwf => ?_⟩, fun length hlength => ?_⟩
  · exact exec_of_faults (c := .precondRange) hs (by simp) (by simp [mgCommand]) (ifSeeded_withInterval_malformed hseeded hrange _)
  · exact exec_of_faults (c := .precondRange) hs (by simp) (by simp [mgCommand]) (ifSeeded_withInterval_malformed hseeded hrange _)
  · exact exec_of_faults (c := .precondRange) hs (by simp) (fun _ => hwf) (ifSeeded_withInterval_malformed hseeded hrange _)
  · refine exec_of_faults (c := .precondLength) hs (by simp) (by simp [mgCommand]) ?_
    rw [commandResult, lengthCheck_of_lt_one hlength]

/-! ### While halted (R244) -/

/-- Settles O47: the refusal is `exec_of_halted`, for a reserved opcode the second half of O8; STAT and the seed channel do not look at
the latch. -/
theorem haltedBlockRefuses : Obligations.HaltedBlockRefuses := by
  unfold Obligations.HaltedBlockRefuses
  intro s hs
  refine ⟨?_, ?_, exec_stat s, ?_⟩
  · exact fun i hi hwf => exec_of_halted hs hi hwf
  · exact fun w rest he hi hop => (reservedOpcodeFaults s w rest he hi hop).2 hs
  · exact fun w rest he hi => (idleBlockQueuesSeedWordsOrWaits s he).1 w rest hi

/-! ### Leaving the halt (R248) -/

/-- All a command of a halted block does is answer. -/
theorem exec_next_of_halted {i : Instr} {s t : State} (h : exec i s = .next t) (hs : s.halt = true) : ∃ r, t = s.respond r := by
  obtain ⟨-, ht⟩ | ⟨-, ht⟩ := exec_next h
  · exact ⟨_, ht⟩
  · rw [runCommand_halted hs] at ht
    exact ⟨_, ht⟩

/-- In a step that takes no reset a halted block writes no fields but the host's list, the queue, the responses and the command in
execution. -/
theorem step_of_halted {s t : State} (hs : s.halt = true) (hreset : s.inputs.head? ≠ some .reset) (h : step s = .next t) :
    ∃ inputs seedq responses executing,
      t = { s with inputs := inputs, seedq := seedq, responses := responses, executing := executing } := by
  obtain ⟨-, -, rfl⟩ | ⟨w, rest, -, -, rfl⟩ | ⟨rest, hi, -⟩ | ⟨w, rest, -, -, rfl⟩ | ⟨w, rest, i, -, -, -, h⟩ | ⟨i, -, -, h⟩ |
    ⟨i, w, rest, -, -, h⟩ := step_next h
  · exact ⟨_, _, _, _, rfl⟩
  · exact ⟨_, _, _, _, rfl⟩
  · exact absurd (by rw [hi, List.head?_cons]) hreset
  · exact ⟨_, _, _, _, illegalCommand_halted hs⟩
  · obtain ⟨r, rfl⟩ := exec_next_of_halted h hs
    exact ⟨_, _, _, _, rfl⟩
  · obtain ⟨r, rfl⟩ := exec_next_of_halted h hs
    exact ⟨_, _, _, _, rfl⟩
  · obtain ⟨r, rfl⟩ := exec_next_of_halted h hs
    exact ⟨_, _, _, _, rfl⟩

/-- Settles O49: without a reset the fields in question are none that `step_of_halted` lets a step write; with one the step boots the
block again (`step_reset`). -/
theorem onlyResetLeavesTheHalt : Obligations.OnlyResetLeavesTheHalt := by
  unfold Obligations.OnlyResetLeavesTheHalt
  intro s t hs h
  constructor
  · intro hreset
    obtain ⟨inputs, seedq, responses, executing, rfl⟩ := step_of_halted hs hreset h
    exact ⟨hs, rfl, ⟨rfl, rfl, rfl, rfl, rfl⟩, ⟨rfl, rfl⟩, rfl⟩
  · intro hreset
    obtain ⟨rest, hi⟩ := List.head?_eq_some_iff.1 hreset
    cases (step_reset hi).symm.trans h
    exact ⟨rfl, rfl, rfl, rfl⟩

end Sys2Proof.Machine
end

/-! ## Seed words and the end of a run (70_reset_and_hazards.md R292, R293, R296)

A block that only queues the seed words it is given (`State.QueuesBelow`) does so over a run of them (`State.QueuesBelow.run`): one that
executes no command, and one whose MT_INIT_ARRAY still lacks words. -/

section
namespace Sys2Proof.Machine

/-! ### Runs of the machine -/

theorem coreRun_succ {M : Host.Core} {s t : M.State} (k : Nat) (h : M.step s = .next t) : M.run (k + 1) s = M.run k t := by
  rw [Host.Core.run, h]

theorem run_succ {s t : State} (k : Nat) (h : step s = .next t) : core.run (k + 1) s = core.run k t :=
  coreRun_succ (M := core) k h

theorem run_one {s t : State} (h : step s = .next t) : core.run 1 s = .next t := run_succ 0 h

/-! ### Queueing seed words (20_memory.md R74) -/

/-- While its queue holds fewer than `m` words, all the block does with the next seed word is to queue it. -/
def State.QueuesBelow (m : Nat) (s : State) : Prop :=
  ∀ (q : List Word) (w : Word) (rest : List HostInput), q.length < m →
    step { s with inputs := .seedWord w :: rest, seedq := q } = .next { s with inputs := rest, seedq := q ++ [w] }

theorem queuesBelow_of_idle (m : Nat) {s : State} (he : s.executing = none) : s.QueuesBelow m :=
  fun _ _ _ _ => step_of_settled (nextTurn_idle_seedWord he rfl)

/-- Until its last word is there, a waiting MT_INIT_ARRAY goes on waiting (O33). -/
theorem queuesBelow_of_mtInitArray {length : Word} {m : Nat} {s : State} (hs : s.halt = false)
    (hlength : length.toInt = ((m + 1 : Nat) : Int)) : { s with executing := some (.mtInitArray length) }.QueuesBelow m := by
  intro q w rest hq
  refine (step_of_run (nextTurn_executing_seedWord rfl rfl)).trans (mtInitArrayWaits length (m + 1) _ hs hlength ?_)
  change (q ++ [w]).length < m + 1
  rw [List.length_append, List.length_singleton]
  omega

theorem State.QueuesBelow.run {m : Nat} {s : State} (h : s.QueuesBelow m) (k : Nat) (rest : List HostInput) {words q : List Word}
    (hm : q.length + words.length ≤ m) :
    core.run (words.length + k) { s with inputs := words.map .seedWord ++ rest, seedq := q } =
      core.run k { s with inputs := rest, seedq := q ++ words } := by
  induction words generalizing q with
  | nil => rw [List.length_nil, Nat.zero_add, List.append_nil, List.map_nil, List.nil_append]
  | cons w ws ih =>
    rw [List.length_cons] at hm
    rw [List.length_cons, Nat.add_right_comm]
    have htail := ih (q := q ++ [w]) (by rw [List.length_append, List.length_singleton]; omega)
    rw [List.append_assoc, List.singleton_append] at htail
    exact (run_succ _ (h q w _ (by omega))).trans htail

/-! ### Seed words before or after MT_INIT_ARRAY (R292, R293) -/

/-- The block after an MT_INIT_ARRAY that has used all the words of the queue, with nothing more presented. -/
def State.arraySeeded (s : State) (words : List Word) : State :=
  ({ s with inputs := [], seedq := [] }.mtInitArray words).respond (okResponse noResult)

theorem exec_mtInitArray_of_exact {length : Word} {words : List Word} {s : State} (hs : s.halt = false) (hq : s.seedq = words)
    (hi : s.inputs = []) (hcheck : lengthCheck length = some words.length) :
    exec (.mtInitArray length) s = .next (s.arraySeeded words) := by
  rw [exec_mtInitArray_of_queued hs hcheck (by rw [hq]), hq, List.drop_length, List.take_length, State.arraySeeded, ← hi]

section
variable {s : State} {words : List Word} {length : Word} (hs : s.halt = false) (he : s.executing = none) (hq : s.seedq = [])
  (hlength : length.toInt = (words.length : Int)) (hwords : words ≠ [])
include hs he hq hlength hwords

theorem run_seedWords_mtInitArray :
    core.run (words.length + 1) { s with inputs := words.map .seedWord ++ [.command (encode (.mtInitArray length))] } =
      .next (s.arraySeeded words) := by
  have hcheck := lengthCheck_of_toInt hlength (List.length_pos_iff.mpr hwords)
  have hqueue := (queuesBelow_of_idle words.length he).run 1 [.command (encode (.mtInitArray length))] (words := words)
    (q := s.seedq) (by simp [hq])
  have hcommand : step { s with inputs := [.command (encode (.mtInitArray length))], seedq := s.seedq ++ words } =
      .next (s.arraySeeded words) := by
    refine (step_command ?_ rfl (decode_encode _)).trans (exec_mtInitArray_of_exact ?_ ?_ rfl hcheck)
    · exact he
    · exact hs
    · exact congrArg (· ++ words) hq
  exact hqueue.trans (run_one hcommand)

/-- The command waits from when it is taken until the last word is queued. -/
theorem run_mtInitArray_seedWords :
    core.run (words.length + 1) { s with inputs := .command (encode (.mtInitArray length)) :: words.map .seedWord } =
      .next (s.arraySeeded words) := by
  have hcheck := lengthCheck_of_toInt hlength (List.length_pos_iff.mpr hwords)
  obtain ⟨init, last, rfl⟩ := (List.eq_nil_or_concat' words).resolve_left hwords
  rw [List.length_append, List.length_singleton] at hlength ⊢
  have htaken : step { s with inputs := .command (encode (.mtInitArray length)) :: (init ++ [last]).map .seedWord } =
      .next { s with inputs := init.map .seedWord ++ [.seedWord last], executing := some (.mtInitArray length) } := by
    rw [List.map_append]
    refine (step_command ?_ rfl (decode_encode _)).trans (mtInitArrayWaits length (init.length + 1) _ ?_ hlength ?_)
    · exact he
    · exact hs
    · simp [hq]
  have hqueue := (queuesBelow_of_mtInitArray hs hlength).run 1 [.seedWord last] (words := init) (q := s.seedq)
    (by simp [hq])
  have hlast : step { s with inputs := [.seedWord last], seedq := s.seedq ++ init, executing := some (.mtInitArray length) } =
      .next (s.arraySeeded (init ++ [last])) := by
    refine (step_of_run (nextTurn_executing_seedWord rfl rfl)).trans (exec_mtInitArray_of_exact ?_ ?_ rfl hcheck)
    · exact hs
    · exact congrArg (· ++ init ++ [last]) hq
  exact (run_succ _ htaken).trans (hqueue.trans (run_one hlast))

end

/-- Settles O13: in either order the command has its words when it is executed last, and both runs end in `State.arraySeeded`. -/
theorem seedWordsBeforeOrAfterTheCommand : Obligations.SeedWordsBeforeOrAfterTheCommand := by
  unfold Obligations.SeedWordsBeforeOrAfterTheCommand
  intro s words length hs he hq hlength hwords
  exact ⟨s.arraySeeded words, run_seedWords_mtInitArray hs he hq hlength hwords, run_mtInitArray_seedWords hs he hq hlength hwords,
    rfl, rfl, rfl, rfl, rfl⟩

/-! ### The end of a run (R296) -/

/-- A command that has just been executed is over exactly when it has been answered: the two cases of O12 exclude each other. -/
theorem executing_eq_none_iff_answered {i : Instr} {s t : State} (h : exec i s = .next t) :
    t.executing = none ↔ ∃ r, t.responses = s.responses ++ [r] := by
  obtain ⟨r, hr, he⟩ | ⟨hr, he⟩ := oneResponsePerCommand i s t h
  · exact ⟨fun _ => ⟨r, hr⟩, fun _ => he⟩
  · rw [hr, he]
    simp

/-- Short of a reset, all that a step of an ended run can do is to wait or to queue a seed word. -/
theorem step_of_runEnded {s t : State} (hs : s.runEnded) (hreset : s.inputs.head? ≠ some .reset) (h : step s = .next t) :
    t = s ∨ ∃ w rest, s.inputs = .seedWord w :: rest ∧ t = { s with inputs := rest }.appendSeed w := by
  obtain ⟨he, hahead⟩ := hs
  obtain ⟨-, -, ht⟩ | ⟨w, rest, -, hi, ht⟩ | ⟨rest, hi, -⟩ | ⟨w, rest, -, hi, -⟩ | ⟨w, rest, i, -, hi, -⟩ | ⟨i, hi, -⟩ |
    ⟨i, w, rest, hi, -⟩ := step_next h
  · exact .inl ht
  · exact .inr ⟨w, rest, hi, ht⟩
  · exact absurd (by rw [hi, List.head?_cons]) hreset
  · rw [hi] at hahead
    cases hahead
  · rw [hi] at hahead
    cases hahead
  · cases he.symm.trans hi
  · cases he.symm.trans hi

/-- A run that has ended stays ended until a reset, and its responses and latch stay. -/
theorem runEnded_step {s t : State} (hs : s.runEnded) (hreset : s.inputs.head? ≠ some .reset) (h : step s = .next t) :
    t.runEnded ∧ t.responses = s.responses ∧ t.halt = s.halt := by
  obtain rfl | ⟨w, rest, hi, rfl⟩ := step_of_runEnded hs hreset h
  · exact ⟨hs, rfl, rfl⟩
  · obtain ⟨he, hahead⟩ := hs
    rw [hi] at hahead
    exact ⟨⟨he, hahead⟩, rfl, rfl⟩

/-- Settles O60: after a command the host's list is as before, so the run has ended when the command is over
(`executing_eq_none_iff_answered`); the second clause is `runEnded_step`. -/
theorem runEndsWithTheLastResponse : Obligations.RunEndsWithTheLastResponse := by
  unfold Obligations.RunEndsWithTheLastResponse
  intro s t
  constructor
  · intro i hahead h
    obtain ⟨-, hinputs⟩ := exec_cfg_inputs h
    rw [State.runEnded, hinputs, and_iff_left hahead]
    exact executing_eq_none_iff_answered h
  · intro hs hreset h
    obtain ⟨ht, hresponses, hhalt⟩ := runEnded_step hs hreset h
    refine ⟨ht, hresponses, hhalt, ?_⟩
    rw [State.endedCleanly, State.endedCleanly, hhalt]
    exact and_congr_left fun _ => iff_of_true hs ht

end Sys2Proof.Machine
end
